-- ==== Sys2Proof/Word.lean ====
section
/-! DEFINITION. The two data formats of the block's ports (spec/30_encoding.md R36, R39, R44). -/

namespace Sys2Proof

/-- A UF8 code: 8 bits, bit 7 the most significant (R7, R36). -/
abbrev Code := BitVec 8

/-- One 4-bit field of a code: an exponent or a mantissa (R6, R36). -/
abbrev Nibble := BitVec 4

/-- A value: an unsigned 32-bit integer, bit `i` of weight `2^i` (R7, R8, R39). -/
abbrev Value := BitVec 32

/-- The operation tag as this model carries it: a byte, of which the spec names the values 0 and 1
(R45, R47). The tag is a modelling device and no hardware field. -/
abbrev Tag := BitVec 8

end Sys2Proof
end

