-- ==== Sys2Proof/Syntax.lean ====
section
/-! DEFINITION. The block's operations, one constructor per row of spec/opcode_table.json. -/

namespace Sys2Proof

/-- The two operations of the block, one per datapath (spec/30_encoding.md R45, R88). Neither has a
field: the operand is the value on the operation's input port (R45, R46). -/
inductive Instr where
  /-- ENCODE, tag 0: quantize the value on `enc_value` to a UF8 code on `enc_code` (R68). -/
  | encode
  /-- DECODE, tag 1: reconstruct on `dec_value` the value of the code on `dec_code` (R54). -/
  | decode
deriving DecidableEq, Repr

end Sys2Proof
end

