-- ==== Sys2Proof/Machine/HostLine.lean ====
section
/-! DEFINITION. The host's program notation of spec/30_encoding.md R48 and its shorthands (R49), as
abstract syntax: a program is a host-ordered list of lines `tN <- OP x`. The results `tN` are values
the host holds; they are no state of the block. -/

namespace Sys2Proof.Machine

/-- The `x` of a line: a literal, or the result of an earlier line (R48). -/
inductive LineOperand where
  /-- A decimal or hexadecimal literal; its spelling is not kept. -/
  | literal (n : Nat)
  /-- `tK`, the result of line `k`, counted from 0. -/
  | result (k : Nat)
deriving DecidableEq, Repr

/-- One line `tN <- OP x`; `N` is the line's place in the program (R48). -/
structure Line where
  op : Instr
  operand : LineOperand
deriving DecidableEq, Repr

/-- `QUANT x` where the next result is `tN`: `tN <- ENCODE x; DECODE tN` (R49). Its second line reads
the result of its own first line, whatever lines stand before it. -/
def quantLines (n : Nat) (x : LineOperand) : List Line :=
  [⟨.encode, x⟩, ⟨.decode, .result n⟩]

/-- `ROUNDTRIP x` where the next result is `tN`: `tN <- DECODE x; ENCODE tN` (R49). -/
def roundTripLines (n : Nat) (x : LineOperand) : List Line :=
  [⟨.decode, x⟩, ⟨.encode, .result n⟩]

end Sys2Proof.Machine
end

