-- ==== Sys2Proof/WellFormed.lean ====
section
/-! DEFINITION. Well-formedness: of an operation, of a tag, and of the host's lines
(spec/30_encoding.md R45 to R48). -/

namespace Sys2Proof

/-- Every operation is well formed: neither has a field that could be out of range (R44, R46). -/
def Instr.wf : Instr → Bool
  | .encode => true
  | .decode => true

/-- The tags that exist: 0 and 1 (R45, R47). -/
def tagWf (t : Tag) : Bool := t == 0 || t == 1

/-- How many lines the operation's input port has (R45, R46). -/
def Instr.operandWidth : Instr → Nat
  | .encode => 32
  | .decode => 8

/-- A line is well formed after lines that ran the operations `earlier` (R48): a literal fits the
operation's input port; a result is an earlier one, and DECODE takes only an 8-bit result, one of
ENCODE (log entry 6). -/
def lineWf (earlier : List Instr) (l : Machine.Line) : Bool :=
  match l.operand, l.op with
  | .literal n, op => decide (n < 2 ^ op.operandWidth)
  | .result k, .encode => decide (k < earlier.length)
  | .result k, .decode => earlier[k]? == some .encode

/-- A program is well formed when each line is, after the lines before it (R48). -/
def linesWf (earlier : List Instr) : List Machine.Line → Bool
  | [] => true
  | l :: rest => lineWf earlier l && linesWf (earlier ++ [l.op]) rest

end Sys2Proof
end

