-- ==== Sys2Proof/Decode.lean ====
section
/-! DEFINITION. The operation tag's decoder and encoder (spec/30_encoding.md R45, R47;
opcode_table.json). The tag is the spec's modelling device; this model carries it in a byte, so
every other value is refused by name. -/

namespace Sys2Proof

/-- Why a tag is rejected. -/
inductive BadTag where
  /-- No operation has this tag (R47). -/
  | noSuchOperation (t : Tag)
deriving DecidableEq, Repr

/-- The operation of a tag: 0 is ENCODE, 1 is DECODE, every other value is rejected (R45, R47). -/
def decodeInstr (t : Tag) : Except BadTag Instr :=
  if t = 0 then .ok .encode
  else if t = 1 then .ok .decode
  else .error (.noSuchOperation t)

/-- The tag of an operation (R45). -/
def encodeInstr : Instr → Tag
  | .encode => 0
  | .decode => 1

/-- The tag byte of a table word: its low 8 bits, those above `nbits` being 0. -/
def tableTag (nbits w : Nat) : Tag := BitVec.ofNat 8 (w % 2 ^ nbits)

/-- The operand of a table word, the bits above its tag byte: the `operand` of the notation
`tag:operand` (95_test_vectors.md L3). The table itself gives an operand no bits. -/
def tableOperand (nbits w : Nat) : Nat := (w % 2 ^ nbits) >>> 8

/-- The operation that the decoder reads from a table word. -/
def decodeTableWord (nbits w : Nat) : Option Instr :=
  match decodeInstr (tableTag nbits w) with
  | .ok i => some i
  | .error _ => none

end Sys2Proof
end

