-- ==== Sys2Proof/Config.lean ====
section
/-! DEFINITION. The fixed parameters of spec/00_scope.md (R6 and its table) and the one free value
the spec leaves open. T_PROP and the number of instances, the two OPEN parameters, are no part of a
model of one instance (R90, R101; log entries 1 and 8). -/

namespace Sys2Proof.Config

/-- EXP_MAX: the exponent ceiling, a wired constant (R6, R19, R61). -/
abbrev expMax : Nat := 15

/-- MAN_MAX: the mantissa ceiling (R6, R66). -/
abbrev manMax : Nat := 15

/-- OFFSET_SEED: the wired constant of the offset formula (R19, R51). -/
abbrev offsetSeed : Value := 0x7FFF

/-- The first value that leaves the fast path, and the step constant of the bucket starts
(R60, R62). -/
abbrev bucketUnit : Value := 16

/-- MAX_VALUE: the largest decoded value, decode(0xFF) (R55; 90_conflicts.md C1). -/
abbrev maxValue : Value := 0xF7FF0

/-- What the leading-zero counter gives for input 0: any 5-bit value (R77; 93_implementation_defined.md
row 1). A FREE VALUE: nothing can be proved of it, and no result of ENCODE depends on it (log entry 4). -/
opaque lzAtZero : BitVec 5

end Sys2Proof.Config
end

