-- ==== Sys2Proof/Machine/State.lean ====
section
/-! DEFINITION. The state: the block's two input ports, what the host asks for and what it has read
(spec/10_state.md R13 to R24). The two output ports are no fields: each is a function of its own input
port (R17, R23), `State.encCode` in Machine/Encoder.lean and `State.decValue` in Machine/Decoder.lean. The block itself holds nothing between
operations (R13, R22); it has no register, memory, flag or mode, and none stands here. -/

namespace Sys2Proof.Machine

/-- The level of one line of a port: 0, 1, or undriven or unknown (R24). -/
inductive Level where
  | zero
  | one
  /-- Neither 0 nor 1: undriven, unknown, or not yet settled (R24, R30). -/
  | unknown
deriving DecidableEq, Repr

/-- The `w` lines of a port; entry `i` is bit `i`, of weight `2^i` (R7, R28). -/
abbrev Lines (w : Nat) := Vector Level w

/-- Lines none of which has a defined level. -/
def unknownLines (w : Nat) : Lines w := Vector.replicate w .unknown

/-- An input port: its lines, and whether the host has held them for T_PROP, the host's one duty
(R96, R98). No number stands for T_PROP (R101; log entry 1). -/
structure InPort (w : Nat) where
  lines : Lines w
  settled : Bool
deriving DecidableEq, Repr

/-- The four ports of the block (R14). -/
inductive Port where
  | encValue
  | encCode
  | decCode
  | decValue
deriving DecidableEq, Repr

/-- The reasons to stop with a fault: NONE. Neither operation raises an exception, traps, fails or
signals an error, for any input (spec/60_exceptions.md R81, R82). Safe: the type has no constructor,
so that no outcome can be a fault. -/
inductive Fault where
deriving DecidableEq, Repr

/-- The reasons to give an operation no meaning. -/
inductive Refusal where
  /-- Raised by `exec` for an operation that has no meaning yet. No arm raises it. Safe. -/
  | notModelled (mnemonic : String)
  /-- Raised by `step` when the host asks for no operation: the block takes no step of its own
  (R16). Safe. -/
  | noOperation
  /-- Raised by `step` for a tag that no operation has (R47). Safe. -/
  | noSuchOperation (t : Tag)
  /-- Raised by an operation whose input port has a line that is undriven or unknown: the operation
  has no meaning (R24). Safe. -/
  | undrivenInput (p : Port)
  /-- Raised by an operation that samples output `p` before its input has been stable for T_PROP:
  the sample has no defined value (R30, R98). Safe. -/
  | sampledTooEarly (p : Port)
  /-- Raised when the host runs a line whose operand names no earlier result or does not fit the
  input port (R48). Never raised by `step`. Safe. -/
  | illFormedLine
deriving DecidableEq, Repr

/-- One instance of the block as the host sees it, and the host's request. The two datapaths share no
field (R17). -/
structure State where
  /-- Input port `enc_value[31:0]` (R14). -/
  encValue : InPort 32
  /-- Input port `dec_code[7:0]` (R14). -/
  decCode : InPort 8
  /-- The output that ENCODE returned for the present input, if it has run: the host's sample of
  `enc_code` (R16, R24). The model's own field, no block state (log entry 5). -/
  encSample : Option Code
  /-- The output that DECODE returned for the present input, if it has run: the host's sample of
  `dec_value` (R16, R24). The model's own field, no block state (log entry 5). -/
  decSample : Option Value
  /-- The tag of the operation the host asks for, if any: the model's own field, no hardware field
  (R45, R47; log entry 3). -/
  request : Option Tag
deriving DecidableEq, Repr

/-- The machine from power-up on, before the host has driven anything. The spec gives no state and
no reset value (R23, R94); no line is defined, nothing is settled, and nothing is asked for or read
(log entries 2, 3 and 5). -/
def State.reset : State where
  encValue := ⟨unknownLines 32, false⟩
  decCode := ⟨unknownLines 8, false⟩
  encSample := none
  decSample := none
  request := none

end Sys2Proof.Machine
end

