-- ==== Sys2Proof/Machine/Ops.lean ====
section
/-! DEFINITION. The named operations over the ports: reading and driving lines, what the host does
(spec/10_state.md R16, spec/70_reset_and_hazards.md R96), and how a step finds its operation. No
operation takes an exception or returns from one: the block has none (spec/60_exceptions.md R81,
R85, R86), and no register or memory to name operations over (R13, R25). -/

namespace Sys2Proof.Machine

/-- The level of a bit. -/
def levelOf (b : Bool) : Level := if b then .one else .zero

/-- Lines that carry `v`: line `i` has the level of bit `i` (R7, R28). -/
def drivenLines {w : Nat} (v : BitVec w) : Lines w :=
  Vector.ofFn fun i => levelOf (v.getLsbD i.val)

/-- The number on a list of levels, the first of weight 1; none if a level is unknown (R7, R24). -/
def natOfLevels : List Level → Option Nat
  | [] => some 0
  | .unknown :: _ => none
  | .zero :: rest => (natOfLevels rest).map fun n => 2 * n
  | .one :: rest => (natOfLevels rest).map fun n => 2 * n + 1

/-- The whole value on the lines, or none if any line is undriven or unknown (R24, R30). -/
def readLines {w : Nat} (l : Lines w) : Option (BitVec w) :=
  (natOfLevels l.toList).map (BitVec.ofNat w)

/-- What an operation reads from its input port `p` when the host samples its output port `out`: the
whole value, if every line is defined (R24) and the input has been stable for T_PROP (R30, R98). -/
def sampleInput {w : Nat} (p out : Port) (i : InPort w) : Except Refusal (BitVec w) :=
  match readLines i.lines with
  | none => .error (.undrivenInput p)
  | some v => if i.settled then .ok v else .error (.sampledTooEarly out)

/-- The host drives the lines of `enc_value` (R16). If a line changes, the input is no longer stable, so
that the output has no defined value until it is held for T_PROP (R30, R98), and no sample of the new
input has been taken (log entry 5); driving the same lines changes nothing (R31; log entry 10). -/
def State.driveEncValue (s : State) (l : Lines 32) : State :=
  if l = s.encValue.lines then s
  else { s with encValue := ⟨l, false⟩, encSample := none }

/-- The host drives the lines of `dec_code`, as `State.driveEncValue` (R16, R30, R31). -/
def State.driveDecCode (s : State) (l : Lines 8) : State :=
  if l = s.decCode.lines then s
  else { s with decCode := ⟨l, false⟩, decSample := none }

/-- The host holds `enc_value` for T_PROP (R96, R98). From now on `enc_code` shows the function of it
(R17, R23), whether or not an operation samples it. -/
def State.settleEncValue (s : State) : State :=
  { s with encValue := ⟨s.encValue.lines, true⟩ }

/-- The host holds `dec_code` for T_PROP (R96, R98). From now on `dec_value` shows the function of it
(R17, R23), whether or not an operation samples it. -/
def State.settleDecCode (s : State) : State :=
  { s with decCode := ⟨s.decCode.lines, true⟩ }

/-- The host asks for the operation with tag `t` (R16, R45). -/
def State.ask (s : State) (t : Tag) : State :=
  { s with request := some t }

/-- The host asks for the operation with tag `t` on operand `n`, driven on the operation's input port
and held for T_PROP: the line `t:n` of 95_test_vectors.md L3 (R16, R45, R48; log entry 7). A tag that no operation
has is only asked for. The operand's bits above the port's width are not driven. -/
def State.present (s : State) (t : Tag) (n : Nat) : State :=
  match decodeInstr t with
  | .ok .encode => ((s.driveEncValue (drivenLines (BitVec.ofNat 32 n))).settleEncValue).ask t
  | .ok .decode => ((s.driveDecCode (drivenLines (BitVec.ofNat 8 n))).settleDecCode).ask t
  | .error _ => s.ask t

/-- The operation a step runs: the one the host asks for. The block has no program counter and
fetches nothing (R15, R35); it takes no step of its own (R16), and a tag other than 0 and 1 is
refused by name (R47). -/
def State.requested (s : State) : Except Refusal Instr :=
  match s.request with
  | none => .error .noOperation
  | some t =>
    match decodeInstr t with
    | .ok i => .ok i
    | .error _ => .error (.noSuchOperation t)

end Sys2Proof.Machine
end

