-- ==== Sys2Proof/Machine/Operands.lean ====
section
/-! DEFINITION. The operand of each operation (spec/30_encoding.md R46) and the fields of a code
(R36 to R38). There are no other operand forms: no immediate, register or addressing mode. -/

namespace Sys2Proof.Machine

/-- ENCODE's operand: the whole of `enc_value` as one unsigned integer (R39, R46). -/
def readEncOperand (s : State) : Except Refusal Value :=
  sampleInput .encValue .encCode s.encValue

/-- DECODE's operand: the whole of `dec_code` (R46). -/
def readDecOperand (s : State) : Except Refusal Code :=
  sampleInput .decCode .decValue s.decCode

/-- The exponent of a code, `code[7:4]` (R36, R37). -/
def exponentField (c : Code) : Nibble := c.extractLsb' 4 4

/-- The mantissa of a code, `code[3:0]` (R36, R37). -/
def mantissaField (c : Code) : Nibble := c.extractLsb' 0 4

/-- The code with the given fields, `(exponent << 4) | mantissa` (R38, R67). -/
def packCode (exponent mantissa : Nibble) : Code :=
  (exponent.setWidth 8 <<< 4) ||| mantissa.setWidth 8

end Sys2Proof.Machine
end

