-- ==== Sys2Proof/Machine/Flags.lean ====
section
/-! DEFINITION. The block has no flags, condition codes or status outputs (spec/10_state.md R18), so
no flag is computed. What stands here are the two one-bit conditions inside the encoder; no port
shows either of them. -/

namespace Sys2Proof.Machine

/-- The internal signal `fast`: the value is below 16 (R21, R60). -/
def fastPath (v : Value) : Bool := decide (v < Config.bucketUnit)

/-- The clamp's condition: the shifted difference does not fit the 4-bit mantissa (R66). The whole
difference is compared (R74 (e)). -/
def overMantissa (raw : Value) : Bool := decide (Config.manMax < raw.toNat)

end Sys2Proof.Machine
end

