-- ==== Sys2Proof/Machine/Decoder.lean ====
section
/-! DEFINITION. The decoder: offset table, value reconstructor and the operation DECODE
(spec/40_decode.md R50 to R58). -/

namespace Sys2Proof.Machine

/-- offset(e), the bucket start of exponent `e` in 0..15: `(0x7FFF >> (15 - e)) << 4` (R51). -/
def offset (e : Nat) : Value := (Config.offsetSeed >>> (Config.expMax - e)) <<< 4

/-- The value reconstructor: `zext_32(m << e) + off` (R53). -/
def reconstruct (e m : Nibble) : Value :=
  (m.setWidth 32 <<< e.toNat) + offset e.toNat

/-- decode(c): the output of the decoder for code `c` (R10, R54). -/
def uf8Decode (c : Code) : Value := reconstruct (exponentField c) (mantissaField c)

/-- Output port `dec_value[31:0]` (R14): at any time the function of `dec_code`, once that is defined
and has been stable for T_PROP, from power-up on; before, no line has a defined level (R17, R23, R30,
R94, R98). Before, lines 31:20 have none either: the model's choice where D4, R14 and R57 (always 0)
and R30 and D15 (no defined value) meet, log entry 13 (DESIGN CHOICE). -/
def State.decValue (s : State) : Lines 32 :=
  match readDecOperand s with
  | .ok c => drivenLines (uf8Decode c)
  | .error _ => unknownLines 32

/-- DECODE: with `decode(port(dec_code))` on `dec_value` (R54), the host reads that port and the step
returns what it shows (R16, R24). It writes no flag, raises no exception and leaves the encoder's
ports alone (R17, R18, R81). -/
def execDecode (s : State) : Host.Outcome State Fault Refusal :=
  match readDecOperand s with
  | .error r => .refused r
  | .ok _ => .next { s with decSample := readLines s.decValue }

end Sys2Proof.Machine
end

