-- ==== Sys2Proof/Machine/BitLength.lean ====
section
/-! DEFINITION. The leading-zero counter, the encoder's internal bit-length helper
(spec/42_bit_length.md R76 to R80). It is no operation of its own and has no port. -/

namespace Sys2Proof.Machine

/-- The number of `i` in 0..31 such that `v[31:31-i]` is 0 (R76). -/
def leadingZeroBits (v : Value) : Nat :=
  (List.range 32).countP fun i => v >>> (31 - i) == 0

/-- lz(v), 5 bits wide (R76). For input 0 it is the free value, any 5-bit value (R77). -/
def lz (v : Value) : BitVec 5 :=
  if v = 0 then Config.lzAtZero else BitVec.ofNat 5 (leadingZeroBits v)

/-- msb = 31 - lz: the index of the most significant set bit, read from a counter's output (R76). -/
def msbOf (lzOut : BitVec 5) : BitVec 5 := 31 - lzOut

end Sys2Proof.Machine
end

