-- ==== Sys2Proof/Machine/Encoder.lean ====
section
/-! DEFINITION. The encoder, its normative steps as the spec gives them (spec/41_encode.md R59 to R68):
fast path, leading-zero counter, bucket selector, mantissa quantizer, packer; and the operation
ENCODE. -/

namespace Sys2Proof.Machine

/-- What the bucket selector carries: the signals `exponent` and `overflow` (R21, R61 to R65). -/
structure Bucket where
  exponent : Nat
  overflow : Value
deriving DecidableEq, Repr

/-- The candidate exponent: `msb - 4` clamped to 15 when `msb >= 5`, else 0 (R61). The clamp is
applied to the full difference. -/
def seedExponent (msb : BitVec 5) : Nat :=
  if 5 ≤ msb.toNat then min (msb.toNat - 4) Config.expMax else 0

/-- The next bucket's start: `(overflow << 1) + 16` (R62, R64). -/
def nextOverflow (overflow : Value) : Value := (overflow <<< 1) + Config.bucketUnit

/-- The inverse step: `(overflow - 16) >> 1` (R63). -/
def prevOverflow (overflow : Value) : Value := (overflow - Config.bucketUnit) >>> 1

/-- The candidate's bucket start: `nextOverflow` accumulated `exponent` times from 0 (R62). -/
def seedOverflow : Nat → Value
  | 0 => 0
  | e + 1 => nextOverflow (seedOverflow e)

/-- The downward correction: while `exponent > 0` and `v < overflow`, one bucket down (R63). -/
def correctDown (v : Value) : Nat → Value → Bucket
  | 0, overflow => ⟨0, overflow⟩
  | e + 1, overflow =>
    if v < overflow then correctDown v e (prevOverflow overflow) else ⟨e + 1, overflow⟩

/-- The upward correction: while the exponent is below 15, which leaves `room` steps, and `v` reaches
the next bucket's start, one bucket up (R64). -/
def correctUp (v : Value) : (room : Nat) → Bucket → Bucket
  | 0, b => b
  | room + 1, b =>
    if v < nextOverflow b.overflow then b
    else correctUp v room ⟨b.exponent + 1, nextOverflow b.overflow⟩

/-- The bucket selector from a candidate exponent: bucket start, downward, then upward correction
(R62 to R64). -/
def selectBucket (v : Value) (candidate : Nat) : Bucket :=
  let down := correctDown v candidate (seedOverflow candidate)
  correctUp v (Config.expMax - down.exponent) down

/-- `m_raw = (v - overflow) >> exponent` (R66). -/
def rawMantissa (v : Value) (b : Bucket) : Value := (v - b.overflow) >>> b.exponent

/-- `mantissa = min(m_raw, 15)` (R66; 90_conflicts.md C2). -/
def clampMantissa (raw : Value) : Nibble :=
  if overMantissa raw then BitVec.ofNat 4 Config.manMax else raw.setWidth 4

/-- The encoder with a given leading-zero counter, which it consults only for `v >= 16` (R60, R68,
R97). -/
def encodeWith (counter : Value → BitVec 5) (v : Value) : Code :=
  if fastPath v then v.setWidth 8
  else
    let b := selectBucket v (seedExponent (msbOf (counter v)))
    packCode (BitVec.ofNat 4 b.exponent) (clampMantissa (rawMantissa v b))

/-- encode(v): the output of the encoder for value `v` (R10, R68). -/
def uf8Encode (v : Value) : Code := encodeWith lz v

/-- Output port `enc_code[7:0]` (R14): at any time the function of `enc_value`, once that is defined
and has been stable for T_PROP, from power-up on; before, no line has a defined level (R17, R23, R30,
R94, R98). -/
def State.encCode (s : State) : Lines 8 :=
  match readEncOperand s with
  | .ok v => drivenLines (uf8Encode v)
  | .error _ => unknownLines 8

/-- ENCODE: with `encode(port(enc_value))` on `enc_code` (R68), the host reads that port and the step
returns what it shows (R16, R24). It writes no flag, raises no exception and leaves the decoder's
ports alone (R17, R18, R81). -/
def execEncode (s : State) : Host.Outcome State Fault Refusal :=
  match readEncOperand s with
  | .error r => .refused r
  | .ok _ => .next { s with encSample := readLines s.encCode }

end Sys2Proof.Machine
end

