-- ==== Sys2Proof/Machine/Step.lean ====
section
/-! DEFINITION. One step: one operation, from input to output, atomically (spec/10_state.md R24,
spec/70_reset_and_hazards.md R101). -/

namespace Sys2Proof.Machine

/-- One step runs the operation the host asks for on the operand at its input port (R16, R24, R45). -/
def step (s : State) : Host.Outcome State Fault Refusal :=
  match s.requested with
  | .error r => .refused r
  | .ok i => exec i s

/-- `s` in which the host asks for the operation of a table word, its operand (zero where the table
gives it no bits) driven on the operation's input port and held for T_PROP (log entry 7). -/
def State.withFetchWord (s : State) (nbits w : Nat) : State :=
  s.present (tableTag nbits w) (tableOperand nbits w)

end Sys2Proof.Machine
end

