-- ==== Sys2Proof/Machine/HostRun.lean ====
section
/-! DEFINITION. How the host runs lines `tN <- OP x` (spec/30_encoding.md R48): it presents the
operation and its operand, runs one step, which samples the output port, and keeps the result. The results are
the host's; the block holds nothing of them. -/

namespace Sys2Proof.Machine

/-- A result the host holds: a code from ENCODE, a value from DECODE (R48). -/
inductive HostValue where
  | code (c : Code)
  | value (v : Value)
deriving DecidableEq, Repr

/-- The host and the block: the block's state, and the results `t0`, `t1`, … in order (R48). -/
structure Session where
  block : State
  results : List HostValue
deriving DecidableEq, Repr

/-- The number that a line's operand stands for, if it can be driven on the operation's input port:
a literal that fits it; for ENCODE any earlier result, for DECODE an earlier result of ENCODE (R48;
log entry 6). -/
def operandNumber (results : List HostValue) (l : Line) : Option Nat :=
  match l.op, l.operand with
  | .encode, .literal n => if n < 2 ^ 32 then some n else none
  | .decode, .literal n => if n < 2 ^ 8 then some n else none
  | .encode, .result k =>
    match results[k]? with
    | some (.code c) => some c.toNat
    | some (.value v) => some v.toNat
    | none => none
  | .decode, .result k =>
    match results[k]? with
    | some (.code c) => some c.toNat
    | _ => none

/-- What the step returned to the host: its sample of the operation's output port (R16, R24). -/
def readResult (s : State) : Instr → Except Refusal HostValue
  | .encode =>
    match s.encSample with
    | some c => .ok (.code c)
    | none => .error (.sampledTooEarly .encCode)
  | .decode =>
    match s.decSample with
    | some v => .ok (.value v)
    | none => .error (.sampledTooEarly .decValue)

/-- The host runs one line (R48). -/
def runLine (h : Session) (l : Line) : Host.Outcome Session Fault Refusal :=
  match operandNumber h.results l with
  | none => .refused .illFormedLine
  | some n =>
    match step (h.block.present (encodeInstr l.op) n) with
    | .fault f => .fault f
    | .refused r => .refused r
    | .next s =>
      match readResult s l.op with
      | .error r => .refused r
      | .ok t => .next ⟨s, h.results ++ [t]⟩

/-- The host runs lines in order (R48). -/
def runLines (h : Session) : List Line → Host.Outcome Session Fault Refusal
  | [] => .next h
  | l :: rest =>
    match runLine h l with
    | .fault f => .fault f
    | .refused r => .refused r
    | .next h' => runLines h' rest

/-- The host runs `QUANT x` (R49), after any lines it has run before. -/
def runQuant (h : Session) (x : LineOperand) : Host.Outcome Session Fault Refusal :=
  runLines h (quantLines h.results.length x)

/-- The host runs `ROUNDTRIP x` (R49), after any lines it has run before. -/
def runRoundTrip (h : Session) (x : LineOperand) : Host.Outcome Session Fault Refusal :=
  runLines h (roundTripLines h.results.length x)

end Sys2Proof.Machine
end

