-- ==== Sys2Proof/Safety.lean ====
section
/-! DEFINITION. What claims say of runs: when an operand is held, and the invariant that no sample is
ever anything but what its output port shows for the present input. -/

namespace Sys2Proof.Machine

/-- The host has done its duty for `enc_value`: it carries `v`, and has been held for T_PROP
(R96, R98). -/
abbrev State.encHolds (s : State) (v : Value) : Prop :=
  readLines s.encValue.lines = some v ∧ s.encValue.settled = true

/-- The host has done its duty for `dec_code` (R96, R98). -/
abbrev State.decHolds (s : State) (c : Code) : Prop :=
  readLines s.decCode.lines = some c ∧ s.decCode.settled = true

/-- Each sample is none, or what its output port shows now: never a value of an earlier input and never
a mix of two (R17, R30). -/
def State.samplesFollowPorts (s : State) : Prop :=
  (s.encSample = none ∨ s.encSample = readLines s.encCode) ∧
  (s.decSample = none ∨ s.decSample = readLines s.decValue)

/-- Everything the host can do to the block between steps (R16). -/
inductive HostAction where
  | driveEncValue (l : Lines 32)
  | driveDecCode (l : Lines 8)
  | settleEncValue
  | settleDecCode
  | ask (t : Tag)
deriving DecidableEq, Repr

/-- The state after a host action. -/
def State.after (s : State) : HostAction → State
  | .driveEncValue l => s.driveEncValue l
  | .driveDecCode l => s.driveDecCode l
  | .settleEncValue => s.settleEncValue
  | .settleDecCode => s.settleDecCode
  | .ask t => s.ask t

end Sys2Proof.Machine
end

