-- ==== Sys2Proof/Certificates/Slice0/Obligations.lean ====
section
/-! DEFINITION. The statements for the provers. Each docstring names the rule of spec/ it formalises.
`s.encHolds v` says that `enc_value` carries `v` and has been held for T_PROP, the host's one duty
(R96); `s.decHolds c` says the same of `dec_code`. `s.encCode` and `s.decValue` are the lines of the
output ports. `encSample` and `decSample` are the outputs that the operations return (R24), held in two
fields of the model's own (log entry 5). An equation `exec i s = .next { s with … }` also says the frame:
the input ports, so both output ports, the other sample and the host's request are unchanged; the block
has nothing else (R13, R18, R25). The operation the host asks for stands in the field `request`, which a
step leaves as it is (log entry 3). -/

open Sys2Proof Sys2Proof.Machine

/-! ### The operation map and the step -/

/-- R45: tag 0 is ENCODE and tag 1 is DECODE, in the decoder and in the encoder. -/
def Obligations.TagsZeroAndOneNameTheOperations : Prop :=
  decodeInstr 0#8 = .ok .encode ∧ decodeInstr 1#8 = .ok .decode ∧
  encodeInstr .encode = 0#8 ∧ encodeInstr .decode = 1#8 ∧
  ∀ i : Instr, i.wf = true → decodeInstr (encodeInstr i) = .ok i

/-- R47: exactly the tags 0 and 1 name an operation, and a step at any other tag is refused by name,
whatever the ports carry. -/
def Obligations.OtherTagsAreRefusedByName : Prop :=
  (∀ t : Tag, (∃ i, decodeInstr t = .ok i) ↔ t = 0#8 ∨ t = 1#8) ∧
  ∀ (s : State) (t : Tag), s.request = some t → t ≠ 0#8 → t ≠ 1#8 →
    step s = .refused (.noSuchOperation t)

/-- R16, R24: a step is the meaning of the operation whose tag the host asks for, and nothing around
it. -/
def Obligations.StepRunsTheRequestedOperation : Prop :=
  ∀ (s : State) (t : Tag) (i : Instr), s.request = some t → decodeInstr t = .ok i → step s = exec i s

/-- R16 and the model's own choice of how it holds the host's request (log entry 3): when the host asks
for nothing the step is refused, and so it is right after reset. -/
def Obligations.NoStepWithoutRequest : Prop :=
  (∀ s : State, s.request = none → step s = .refused .noOperation) ∧
  step State.reset = .refused .noOperation

/-- The model's choice for the empty reset table of R23 (log entries 2, 3 and 5): after reset no line of a
port has a level, no input has settled, and nothing is asked for or has been sampled. That lines 31:20
of `dec_value` have none either is log entry 13. -/
def Obligations.ResetDefinesNoLine : Prop :=
  (∀ i : Fin 32, State.reset.encValue.lines[i] = .unknown ∧ State.reset.decValue[i] = .unknown) ∧
  (∀ i : Fin 8, State.reset.decCode.lines[i] = .unknown ∧ State.reset.encCode[i] = .unknown) ∧
  State.reset.encValue.settled = false ∧ State.reset.decCode.settled = false ∧
  State.reset.request = none ∧ State.reset.encSample = none ∧ State.reset.decSample = none

/-! ### The code's fields -/

/-- R37: the unpacker, by shift and mask and by slices. -/
def Obligations.UnpackerSplitsTheCode : Prop :=
  ∀ c : Code,
    (exponentField c).toNat = c.toNat >>> 4 ∧ (mantissaField c).toNat = c.toNat &&& 0xF ∧
    exponentField c = c.extractLsb' 4 4 ∧ mantissaField c = c.extractLsb' 0 4

/-- R38: pack and unpack are inverse, and packing merges no bits. -/
def Obligations.PackAndUnpackAreInverse : Prop :=
  (∀ e m : Nibble, exponentField (packCode e m) = e ∧ mantissaField (packCode e m) = m ∧
    (packCode e m).toNat = (e.toNat <<< 4) ||| m.toNat) ∧
  ∀ c : Code, packCode (exponentField c) (mantissaField c) = c

/-! ### DECODE -/

/-- R54: DECODE puts and answers `(m << e) + ((0x7FFF >> (15 - e)) << 4)` on `dec_value`, for every one of
the 256 codes; flags none, exceptions none, everything else unchanged. -/
def Obligations.DecodeReconstructsEveryCode : Prop :=
  ∀ (s : State) (c : Code), s.decHolds c →
    ∃ x : Value, x = BitVec.ofNat 32
        (((c.toNat &&& 0xF) <<< (c.toNat >>> 4)) + ((0x7FFF >>> (15 - (c.toNat >>> 4))) <<< 4)) ∧
      exec .decode s = .next { s with decSample := some x } ∧ s.decValue = drivenLines x

/-- R52: the closed form of the offset table and its recurrence, on all 16 exponents. -/
def Obligations.OffsetTableHasItsClosedForm : Prop :=
  (∀ e ≤ 15, (0x7FFF#32 >>> (15 - e)).toNat = 2 ^ e - 1 ∧ (offset e).toNat = 16 * (2 ^ e - 1) ∧
    (offset e).toNat = 2 ^ (e + 4) - 16) ∧
  (offset 0).toNat = 0 ∧
  ∀ e < 15, (offset (e + 1)).toNat = 2 * (offset e).toNat + 16 ∧
    offset (e + 1) = nextOverflow (offset e)

/-- R56, R43: DECODE is total; the codes' unsigned order is the order of the values it answers; and
from one code to the next the value grows by `2^e`, by `2^(e-1)` into a new exponent `e`. -/
def Obligations.DecodeIsTotalAndStrictlyIncreasing : Prop :=
  (∀ (s t : State) (a b : Code), s.decHolds a → t.decHolds b →
    ∃ x y, exec .decode s = .next { s with decSample := some x } ∧
      exec .decode t = .next { t with decSample := some y } ∧
      (a.toNat < b.toNat ↔ x.toNat < y.toNat)) ∧
  ∀ (s t : State) (a b : Code), s.decHolds a → t.decHolds b → b.toNat = a.toNat + 1 →
    ∃ x y, exec .decode s = .next { s with decSample := some x } ∧
      exec .decode t = .next { t with decSample := some y } ∧
      y.toNat = x.toNat + (if (mantissaField b).toNat = 0 then 2 ^ ((exponentField b).toNat - 1)
        else 2 ^ (exponentField b).toNat)

/-- R55: what DECODE answers is at most 0xF7FF0 = 1015792, and is that for code 0xFF alone. -/
def Obligations.LargestDecodedValueIsThatOfTheLastCode : Prop :=
  ∀ (s : State) (c : Code), s.decHolds c →
    ∃ x, exec .decode s = .next { s with decSample := some x } ∧ s.decValue = drivenLines x ∧
      x.toNat ≤ 1015792 ∧
      (x.toNat = 1015792 ↔ c = 0xFF#8) ∧ x.toNat < 2 ^ 20

/-- R57: no intermediate value of the decoder exceeds its width, nothing wraps, and bits 31:20 of
`dec_value` are 0. -/
def Obligations.DecoderNeverWraps : Prop :=
  ∀ (s : State) (c : Code), s.decHolds c →
    (exponentField c).toNat ≤ 15 ∧
    (offset (exponentField c).toNat).toNat ≤ 0x7FFF0 ∧
    (mantissaField c).toNat <<< (exponentField c).toNat ≤ 0x78000 ∧
    exec .decode s = .next { s with decSample := some (uf8Decode c) } ∧
    (uf8Decode c).toNat =
      ((mantissaField c).toNat <<< (exponentField c).toNat) + (offset (exponentField c).toNat).toNat ∧
    (uf8Decode c).toNat ≤ 0xF7FF0 ∧
    ∀ i : Fin 32, 20 ≤ i.val → s.decValue[i] = .zero

/-! ### The leading-zero counter -/

/-- R76: for a non-zero value the counter counts the `i` with `v[31:31-i] = 0`, msb is 31 less that,
`2^msb <= v < 2^(msb+1)`, and msb is the greatest index of a set bit. -/
def Obligations.CounterFindsTheHighestSetBit : Prop :=
  ∀ v : Value, v ≠ 0#32 →
    (lz v).toNat = ((List.range 32).filter fun i => v.toNat / 2 ^ (31 - i) = 0).length ∧
    (lz v).toNat + (msbOf (lz v)).toNat = 31 ∧
    2 ^ (msbOf (lz v)).toNat ≤ v.toNat ∧ v.toNat < 2 ^ ((msbOf (lz v)).toNat + 1) ∧
    v.getLsbD (msbOf (lz v)).toNat = true ∧
    ∀ i < 32, v.getLsbD i = true → i ≤ (msbOf (lz v)).toNat

/-- R79: where ENCODE uses the counter, msb is in 4..31 and lz in 0..27; only msb >= 5 changes the seed,
and msb in 20..31 all seed 15. -/
def Obligations.CounterRangeWithinEncode : Prop :=
  ∀ v : Value, fastPath v = false →
    4 ≤ (msbOf (lz v)).toNat ∧ (msbOf (lz v)).toNat ≤ 31 ∧ (lz v).toNat ≤ 27 ∧
    ((msbOf (lz v)).toNat < 5 → seedExponent (msbOf (lz v)) = 0) ∧
    (5 ≤ (msbOf (lz v)).toNat → 0 < seedExponent (msbOf (lz v))) ∧
    (20 ≤ (msbOf (lz v)).toNat → seedExponent (msbOf (lz v)) = 15)

/-- R77, R78, R97: for `v < 16` ENCODE's result does not depend on the counter at all, at 0 or elsewhere;
and every counter that is right on the non-zero values gives the same encoder. -/
def Obligations.NoResultDependsOnTheCounterAtZero : Prop :=
  (∀ (counter : Value → BitVec 5) (v : Value), v.toNat < 16 →
    encodeWith counter v = v.setWidth 8 ∧ encodeWith counter v = uf8Encode v) ∧
  ∀ counter : Value → BitVec 5,
    (∀ v : Value, v ≠ 0#32 → 2 ^ (31 - (counter v).toNat) ≤ v.toNat ∧
      v.toNat < 2 ^ (31 - (counter v).toNat + 1)) →
    ∀ v : Value, encodeWith counter v = uf8Encode v

/-! ### The bucket selector and the quantizer -/

/-- R65: for `v >= 16` the selector ends at the greatest exponent in 0..15 whose bucket starts at or below
`v`, with that bucket's start; the downward loop never iterates and the upward loop at most once. -/
def Obligations.BucketSelectorFindsTheGreatestBucket : Prop :=
  ∀ v : Value, 16 ≤ v.toNat →
    let seed := seedExponent (msbOf (lz v))
    let b := selectBucket v seed
    b.exponent ≤ 15 ∧ b.overflow = offset b.exponent ∧ (offset b.exponent).toNat ≤ v.toNat ∧
    (∀ e ≤ 15, (offset e).toNat ≤ v.toNat → e ≤ b.exponent) ∧
    correctDown v seed (seedOverflow seed) = ⟨seed, seedOverflow seed⟩ ∧
    seed ≤ b.exponent ∧ b.exponent ≤ seed + 1

/-- R61 (D7): any start in 0..15, too low or too high, leads the selector to the same bucket. -/
def Obligations.AnyCandidateLeadsToTheSameBucket : Prop :=
  ∀ (v : Value) (e₁ e₂ : Nat), e₁ ≤ 15 → e₂ ≤ 15 → selectBucket v e₁ = selectBucket v e₂

/-- R66, R74: on the main path the difference does not wrap, the shift is the floor of a division by
`2^exponent`, the whole shifted difference is clamped to 15, and it exceeds 15 exactly from
0xFFFF0 on, where the exponent is 15. -/
def Obligations.QuantizerFloorsAndClamps : Prop :=
  ∀ v : Value, 16 ≤ v.toNat →
    let b := selectBucket v (seedExponent (msbOf (lz v)))
    let raw := rawMantissa v b
    b.overflow.toNat ≤ 0x7FFF0 ∧ b.overflow.toNat ≤ v.toNat ∧
    raw.toNat = (v.toNat - b.overflow.toNat) / 2 ^ b.exponent ∧ raw.toNat ≤ 131056 ∧
    (clampMantissa raw).toNat = min raw.toNat 15 ∧
    (15 < raw.toNat ↔ b.exponent = 15 ∧ 0xFFFF0 ≤ v.toNat) ∧
    (15 < raw.toNat ↔ 0xFFFF0 ≤ v.toNat)

/-! ### ENCODE -/

/-- R73 with R68: ENCODE is the table form, for every one of the 2^32 values: the greatest `e` in 0..15
with offset(e) <= v, the clamped floor, and the packed fields on `enc_code` and answered; everything
else unchanged. -/
def Obligations.EncodeIsTheTableForm : Prop :=
  ∀ (s : State) (v : Value), s.encHolds v →
    ∃ e ≤ 15, 16 * (2 ^ e - 1) ≤ v.toNat ∧ (∀ k ≤ 15, 16 * (2 ^ k - 1) ≤ v.toNat → k ≤ e) ∧
      ∃ c : Code, c = BitVec.ofNat 8 ((e <<< 4) ||| min ((v.toNat - 16 * (2 ^ e - 1)) >>> e) 15) ∧
        exec .encode s = .next { s with encSample := some c } ∧ s.encCode = drivenLines c

/-- R69: ENCODE answers the greatest code whose decoded value does not exceed the operand. -/
def Obligations.EncodeAnswersTheGreatestCodeNotAbove : Prop :=
  ∀ (s : State) (v : Value), s.encHolds v →
    ∃ c : Code, exec .encode s = .next { s with encSample := some c } ∧
      (uf8Decode c).toNat ≤ v.toNat ∧
      ∀ d : Code, (uf8Decode d).toNat ≤ v.toNat → d.toNat ≤ c.toNat

/-- R58, R60: for `v < 16` ENCODE answers `v` itself, and DECODE answers `v` for that code. -/
def Obligations.FirstSixteenValuesAreTheirOwnCodes : Prop :=
  ∀ (s : State) (v : Value), v.toNat < 16 →
    (s.encHolds v → exec .encode s = .next { s with encSample := some (v.setWidth 8) } ∧
      s.encCode = drivenLines (v.setWidth 8)) ∧
    (s.decHolds (v.setWidth 8) → exec .decode s = .next { s with decSample := some v } ∧
      s.decValue = drivenLines v)

/-- R71: ENCODE answers 0xFF exactly for the values from 0xF7FF0 on. -/
def Obligations.EncodeSaturatesExactlyFromMaxValue : Prop :=
  ∀ (s : State) (v : Value), s.encHolds v →
    ∃ c : Code, exec .encode s = .next { s with encSample := some c } ∧
      (c = 0xFF#8 ↔ 0xF7FF0 ≤ v.toNat)

/-- R72: decode(encode(v)) <= v, and v < decode(encode(v) + 1) unless the code is 0xFF. -/
def Obligations.EncodeNeverRoundsUp : Prop :=
  ∀ (s : State) (v : Value), s.encHolds v →
    ∃ c : Code, exec .encode s = .next { s with encSample := some c } ∧
      (uf8Decode c).toNat ≤ v.toNat ∧
      (c.toNat < 0xFF → v.toNat < (uf8Decode (c + 1#8)).toNat)

/-- R75: ENCODE is monotone, and the values that give code `c` are exactly `2^e` consecutive ones from
decode(c) on, `2^15` for 0xF0 to 0xFE, and all from 0xF7FF0 to 2^32 - 1 for 0xFF. -/
def Obligations.EncodeIsMonotoneWithExactCells : Prop :=
  (∀ (s t : State) (v w : Value), s.encHolds v → t.encHolds w → v.toNat ≤ w.toNat →
    ∃ c d : Code, exec .encode s = .next { s with encSample := some c } ∧
      exec .encode t = .next { t with encSample := some d } ∧ c.toNat ≤ d.toNat) ∧
  ∀ (s : State) (v : Value) (c : Code), s.encHolds v →
    (exec .encode s = .next { s with encSample := some c } ↔
      (uf8Decode c).toNat ≤ v.toNat ∧ v.toNat < (uf8Decode c).toNat +
        (if c.toNat = 0xFF then 2 ^ 32 - 0xF7FF0 else 2 ^ (exponentField c).toNat))

/-! ### Both operations -/

/-- R70 with R49: from any state, DECODE of a code followed by ENCODE of the value it answered, as the
host presents them, gives the code back. -/
def Obligations.RoundTripGivesTheCodeBack : Prop :=
  ∀ (s : State) (c : Code), ∃ (s₁ s₂ : State) (x : Value),
    step (s.present (encodeInstr .decode) c.toNat) = .next s₁ ∧ s₁.decSample = some x ∧
    readLines s₁.decValue = some x ∧
    step (s₁.present (encodeInstr .encode) x.toNat) = .next s₂ ∧ s₂.encSample = some c ∧
    readLines s₂.encCode = some c

/-- R49, R70, R72: from any state of the block and after any lines the host has run before, ROUNDTRIP c
runs to the end and gives c back, and QUANT v runs to the end and gives a value not above v; also where
c is an earlier result of ENCODE, and v one of DECODE. The results held before stay as they are. -/
def Obligations.ShorthandsRunAsTheirLines : Prop :=
  (∀ (h : Session) (c : Code) (y : LineOperand),
    y = .literal c.toNat ∨ (∃ k, y = .result k ∧ h.results[k]? = some (.code c)) →
    ∃ (s' : State) (x : Value),
      runRoundTrip h y = .next ⟨s', h.results ++ [.value x, .code c]⟩) ∧
  ∀ (h : Session) (v : Value) (y : LineOperand),
    y = .literal v.toNat ∨ (∃ k, y = .result k ∧ h.results[k]? = some (.value v)) →
    ∃ (s' : State) (c : Code) (x : Value),
      runQuant h y = .next ⟨s', h.results ++ [.code c, .value x]⟩ ∧ x.toNat ≤ v.toNat

/-- R17: each output PORT is, in every state and whether or not an operation has run, one function of
its own input port alone: of the value it carries, once that is defined and has been held for T_PROP,
whatever came before and whatever the other datapath carries. ENCODE and DECODE answer what it shows. -/
def Obligations.OutputsAreFunctionsOfTheirOwnInput : Prop :=
  (∃ (f : InPort 32 → Lines 8) (g : InPort 8 → Lines 32),
    ∀ s : State, s.encCode = f s.encValue ∧ s.decValue = g s.decCode) ∧
  ∃ (f : Value → Code) (g : Code → Value),
    (∀ (s : State) (v : Value), s.encHolds v → s.encCode = drivenLines (f v) ∧
      exec .encode s = .next { s with encSample := some (f v) }) ∧
    ∀ (s : State) (c : Code), s.decHolds c → s.decValue = drivenLines (g c) ∧
      exec .decode s = .next { s with decSample := some (g c) }

/-- R23, R94: from power-up on, once the host has driven an input and held it for T_PROP, and with no
operation run, the output port shows the function of it, and the other output port shows what it
showed. -/
def Obligations.OutputsShowTheFunctionOnceInputsSettle : Prop :=
  (∀ (s : State) (v : Value),
    (s.driveEncValue (drivenLines v)).settleEncValue.encCode = drivenLines (uf8Encode v) ∧
    (s.driveEncValue (drivenLines v)).settleEncValue.decValue = s.decValue) ∧
  ∀ (s : State) (c : Code),
    (s.driveDecCode (drivenLines c)).settleDecCode.decValue = drivenLines (uf8Decode c) ∧
    (s.driveDecCode (drivenLines c)).settleDecCode.encCode = s.encCode

/-- R82, R24, R30 (93 row 6): an operation on an operand that is defined and held for T_PROP always gives
a result; otherwise it is refused, as undriven or as sampled too early, and nothing else can happen. That the host's duty of T_PROP is a bit of the state,
so that an unsettled operand is a state at all, is the model's choice, log entry 1. -/
def Obligations.OnlyOperandsNotDefinedAndHeldAreRefused : Prop :=
  (∀ s : State, (∃ v, s.encHolds v ∧ ∃ s', exec .encode s = .next s') ∨
    ((∀ v, ¬ s.encHolds v) ∧ (exec .encode s = .refused (.undrivenInput .encValue) ∨
      exec .encode s = .refused (.sampledTooEarly .encCode)))) ∧
  ∀ s : State, (∃ c, s.decHolds c ∧ ∃ s', exec .decode s = .next s') ∨
    ((∀ c, ¬ s.decHolds c) ∧ (exec .decode s = .refused (.undrivenInput .decCode) ∨
      exec .decode s = .refused (.sampledTooEarly .decValue)))

/-- R24: one input line that is undriven or unknown, any one of them, gives the operation no meaning, and
it is refused by name. That the name is that of the undriven input also where the input has not settled
is the model's choice, log entry 11: the spec refuses both and gives no order. -/
def Obligations.UndrivenLineIsRefused : Prop :=
  (∀ (s : State) (i : Fin 32), s.encValue.lines[i] = .unknown →
    exec .encode s = .refused (.undrivenInput .encValue)) ∧
  ∀ (s : State) (i : Fin 8), s.decCode.lines[i] = .unknown →
    exec .decode s = .refused (.undrivenInput .decCode)

/-- R30, R98: an output sampled before its defined input has been stable for T_PROP is refused by name;
and when the host changes the lines of an input, its output port shows nothing until the input is held
again, and then the operation's operand is the new value. T_PROP as a bit of the state is log entry 1,
that no sample of the new input has been taken is log entry 5, and that lines 31:20 of `dec_value` show
nothing either is log entry 13, the model's choice. -/
def Obligations.EarlySampleIsRefused : Prop :=
  (∀ (s : State) (v : Value), readLines s.encValue.lines = some v → s.encValue.settled = false →
    exec .encode s = .refused (.sampledTooEarly .encCode)) ∧
  (∀ (s : State) (c : Code), readLines s.decCode.lines = some c → s.decCode.settled = false →
    exec .decode s = .refused (.sampledTooEarly .decValue)) ∧
  (∀ (s : State) (v w : Value), readLines s.encValue.lines = some w → v ≠ w →
    exec .encode (s.driveEncValue (drivenLines v)) = .refused (.sampledTooEarly .encCode) ∧
    (s.driveEncValue (drivenLines v)).encCode = unknownLines 8 ∧
    (s.driveEncValue (drivenLines v)).encSample = none ∧
    (s.driveEncValue (drivenLines v)).settleEncValue.encHolds v) ∧
  ∀ (s : State) (c d : Code), readLines s.decCode.lines = some d → c ≠ d →
    exec .decode (s.driveDecCode (drivenLines c)) = .refused (.sampledTooEarly .decValue) ∧
    (s.driveDecCode (drivenLines c)).decValue = unknownLines 32 ∧
    (s.driveDecCode (drivenLines c)).decSample = none ∧
    (s.driveDecCode (drivenLines c)).settleDecCode.decHolds c

/-- R31: an operation is idempotent. After a step, holding the inputs for longer and driving the same
lines again change nothing the operation shows, and the step then answers the same state again. Two
things here are the model's: that driving the same lines is no change at all, so that the input stays
settled and the output stays as it is, is log entry 10 (DEDUCED); that the request outlives the step, so
that the next step repeats it, is log entry 3 (DESIGN CHOICE). -/
def Obligations.OperationsAreIdempotent : Prop :=
  ∀ s s' : State, step s = .next s' →
    step s' = .next s' ∧
    s'.driveEncValue s.encValue.lines = s' ∧ s'.driveDecCode s.decCode.lines = s' ∧
    step s'.settleEncValue = .next s'.settleEncValue ∧
    step s'.settleDecCode = .next s'.settleDecCode

/-- R84, R32: an ENCODE and a DECODE presented at the same time do not interact: in either order both
complete, with the same results. -/
def Obligations.DatapathsDoNotInteract : Prop :=
  ∀ (s : State) (v : Value) (c : Code), s.encHolds v → s.decHolds c →
    ∃ (s₁ s₂ t : State), exec .encode s = .next s₁ ∧ exec .decode s = .next s₂ ∧
      exec .decode s₁ = .next t ∧ exec .encode s₂ = .next t ∧
      t = { s with encSample := some (uf8Encode v), decSample := some (uf8Decode c) }

/-- R22, R95: what an operation answers to a presented operand does not depend on the state before, be it
the one after reset. `n` is any number: where it is wider than the operation's port, that the bits
above the port are dropped, and the operation completes on the rest, is the model's choice, log
entry 7. -/
def Obligations.PresentedOperationForgetsThePast : Prop :=
  ∀ n : Nat,
    (∃ c : Code, ∀ s : State, ∃ s', step (s.present (encodeInstr .encode) n) = .next s' ∧
      s'.encSample = some c ∧ readLines s'.encCode = some c ∧
      s'.decCode = s.decCode ∧ s'.decValue = s.decValue ∧ s'.decSample = s.decSample) ∧
    ∃ x : Value, ∀ s : State, ∃ s', step (s.present (encodeInstr .decode) n) = .next s' ∧
      s'.decSample = some x ∧ readLines s'.decValue = some x ∧
      s'.encValue = s.encValue ∧ s'.encCode = s.encCode ∧ s'.encSample = s.encSample

/-! ### The invariant -/

/-- The invariant at reset (log entries 2 and 5): nothing has been sampled. -/
def Obligations.ResetSamplesFollowPorts : Prop :=
  State.reset.samplesFollowPorts

/-- R17, R30: every step keeps it that a sample is none or what its output port shows for the present
input, never an earlier one's and never a mix. That the state holds a sample for each datapath, and for
the present input only, is the model's choice, log entry 5. -/
def Obligations.EveryStepKeepsSamplesFollowingPorts : Prop :=
  ∀ s s' : State, s.samplesFollowPorts → step s = .next s' → s'.samplesFollowPorts

/-- R17, R30: everything the host can do between steps keeps it too (log entry 5). -/
def Obligations.EveryHostActionKeepsSamplesFollowingPorts : Prop :=
  ∀ (s : State) (a : HostAction), s.samplesFollowPorts → (s.after a).samplesFollowPorts

/-- R17, R30: in every state an output port that reads as a value shows the function of the value its
input holds; where the invariant holds, so is a sample (log entry 5). -/
def Obligations.DefinedOutputIsTheFunctionOfItsInput : Prop :=
  (∀ (s : State) (c : Code), readLines s.encCode = some c ↔ ∃ v, s.encHolds v ∧ c = uf8Encode v) ∧
  (∀ (s : State) (x : Value), readLines s.decValue = some x ↔ ∃ c, s.decHolds c ∧ x = uf8Decode c) ∧
  ∀ s : State, s.samplesFollowPorts →
    (∀ c : Code, s.encSample = some c → ∃ v, s.encHolds v ∧ c = uf8Encode v) ∧
    ∀ x : Value, s.decSample = some x → ∃ c, s.decHolds c ∧ x = uf8Decode c
end

