-- ==== Sys2Proof/Laws/State.lean ====
section
/-! SUPPORT. What each update of the state leaves in each field, so that no later proof unfolds a
record update. -/

namespace Sys2Proof.Machine

@[simp] theorem State.settleEncValue_lines (s : State) :
    s.settleEncValue.encValue.lines = s.encValue.lines := rfl
@[simp] theorem State.settleEncValue_settled (s : State) :
    s.settleEncValue.encValue.settled = true := rfl
@[simp] theorem State.settleEncValue_encSample (s : State) : s.settleEncValue.encSample = s.encSample := rfl
@[simp] theorem State.settleEncValue_decCode (s : State) : s.settleEncValue.decCode = s.decCode := rfl
@[simp] theorem State.settleEncValue_decSample (s : State) :
    s.settleEncValue.decSample = s.decSample := rfl
@[simp] theorem State.settleEncValue_request (s : State) : s.settleEncValue.request = s.request := rfl

@[simp] theorem State.settleDecCode_lines (s : State) :
    s.settleDecCode.decCode.lines = s.decCode.lines := rfl
@[simp] theorem State.settleDecCode_settled (s : State) :
    s.settleDecCode.decCode.settled = true := rfl
@[simp] theorem State.settleDecCode_encValue (s : State) :
    s.settleDecCode.encValue = s.encValue := rfl
@[simp] theorem State.settleDecCode_encSample (s : State) : s.settleDecCode.encSample = s.encSample := rfl
@[simp] theorem State.settleDecCode_decSample (s : State) :
    s.settleDecCode.decSample = s.decSample := rfl
@[simp] theorem State.settleDecCode_request (s : State) : s.settleDecCode.request = s.request := rfl

@[simp] theorem State.ask_encValue (s : State) (t : Tag) : (s.ask t).encValue = s.encValue := rfl
@[simp] theorem State.ask_encSample (s : State) (t : Tag) : (s.ask t).encSample = s.encSample := rfl
@[simp] theorem State.ask_decCode (s : State) (t : Tag) : (s.ask t).decCode = s.decCode := rfl
@[simp] theorem State.ask_decSample (s : State) (t : Tag) : (s.ask t).decSample = s.decSample := rfl
@[simp] theorem State.ask_request (s : State) (t : Tag) : (s.ask t).request = some t := rfl

@[simp] theorem State.driveEncValue_same (s : State) : s.driveEncValue s.encValue.lines = s := by
  simp [State.driveEncValue]

theorem State.driveEncValue_of_ne (s : State) (l : Lines 32) (h : l ≠ s.encValue.lines) :
    s.driveEncValue l = { s with encValue := ⟨l, false⟩, encSample := none } := by
  simp [State.driveEncValue, h]

@[simp] theorem State.driveEncValue_lines (s : State) (l : Lines 32) :
    (s.driveEncValue l).encValue.lines = l := by
  unfold State.driveEncValue; split <;> simp_all

@[simp] theorem State.driveEncValue_decCode (s : State) (l : Lines 32) :
    (s.driveEncValue l).decCode = s.decCode := by
  unfold State.driveEncValue; split <;> rfl

@[simp] theorem State.driveEncValue_decSample (s : State) (l : Lines 32) :
    (s.driveEncValue l).decSample = s.decSample := by
  unfold State.driveEncValue; split <;> rfl

@[simp] theorem State.driveEncValue_request (s : State) (l : Lines 32) :
    (s.driveEncValue l).request = s.request := by
  unfold State.driveEncValue; split <;> rfl

@[simp] theorem State.driveDecCode_same (s : State) : s.driveDecCode s.decCode.lines = s := by
  simp [State.driveDecCode]

theorem State.driveDecCode_of_ne (s : State) (l : Lines 8) (h : l ≠ s.decCode.lines) :
    s.driveDecCode l = { s with decCode := ⟨l, false⟩, decSample := none } := by
  simp [State.driveDecCode, h]

@[simp] theorem State.driveDecCode_lines (s : State) (l : Lines 8) :
    (s.driveDecCode l).decCode.lines = l := by
  unfold State.driveDecCode; split <;> simp_all

@[simp] theorem State.driveDecCode_encValue (s : State) (l : Lines 8) :
    (s.driveDecCode l).encValue = s.encValue := by
  unfold State.driveDecCode; split <;> rfl

@[simp] theorem State.driveDecCode_encSample (s : State) (l : Lines 8) : (s.driveDecCode l).encSample = s.encSample := by
  unfold State.driveDecCode; split <;> rfl

@[simp] theorem State.driveDecCode_request (s : State) (l : Lines 8) :
    (s.driveDecCode l).request = s.request := by
  unfold State.driveDecCode; split <;> rfl

end Sys2Proof.Machine
end

