-- ==== Sys2Proof/Laws/Ops.lean ====
section
/-! SUPPORT. What each shared operation over the ports can do, said once. -/

namespace Sys2Proof.Machine

@[simp] theorem levelOf_ne_unknown (b : Bool) : levelOf b ≠ .unknown := by cases b <;> decide

/-- Reading levels fails exactly when one of them is unknown. -/
theorem natOfLevels_eq_none_iff (l : List Level) : natOfLevels l = none ↔ .unknown ∈ l := by
  induction l with
  | nil => simp [natOfLevels]
  | cons x rest ih => cases x <;> simp [natOfLevels, ih]

/-- Levels that read as `n` are those of the bits of `n`. -/
theorem levels_of_natOfLevels {l : List Level} {n : Nat} (h : natOfLevels l = some n) :
    n < 2 ^ l.length ∧ ∀ i, ∀ hi : i < l.length, l[i] = levelOf (n.testBit i) := by
  induction l generalizing n with
  | nil =>
    simp only [natOfLevels, Option.some.injEq] at h
    subst h
    simp
  | cons x rest ih =>
    cases x with
    | unknown => simp [natOfLevels] at h
    | zero =>
      simp only [natOfLevels, Option.map_eq_some_iff] at h
      obtain ⟨m, hm, rfl⟩ := h
      obtain ⟨hlt, hbits⟩ := ih hm
      refine ⟨by simp only [List.length_cons, Nat.pow_succ]; omega, fun i hi => ?_⟩
      cases i with
      | zero => simp [levelOf]
      | succ i =>
        rw [show 2 * m = m * 2 by omega] at *
        simpa [Nat.testBit_succ] using hbits i (by simpa using hi)
    | one =>
      simp only [natOfLevels, Option.map_eq_some_iff] at h
      obtain ⟨m, hm, rfl⟩ := h
      obtain ⟨hlt, hbits⟩ := ih hm
      refine ⟨by simp only [List.length_cons, Nat.pow_succ]; omega, fun i hi => ?_⟩
      cases i with
      | zero => simp [levelOf, Nat.testBit_zero]
      | succ i =>
        have hd : (2 * m + 1) / 2 = m := by omega
        simpa [Nat.testBit_succ, hd] using hbits i (by simpa using hi)

/-- Lines read as no value exactly when one of them is unknown. -/
theorem readLines_eq_none_iff {w : Nat} (l : Lines w) :
    readLines l = none ↔ ∃ i : Fin w, l[i] = .unknown := by
  rw [readLines, Option.map_eq_none_iff, natOfLevels_eq_none_iff, Vector.mem_toList_iff,
    Vector.mem_iff_getElem]
  exact ⟨fun ⟨i, hi, h⟩ => ⟨⟨i, hi⟩, h⟩, fun ⟨i, h⟩ => ⟨i.val, i.isLt, h⟩⟩

/-- Lines that read as `v` are the lines that carry `v`. -/
theorem eq_drivenLines_of_readLines {w : Nat} {l : Lines w} {v : BitVec w}
    (h : readLines l = some v) : l = drivenLines v := by
  simp only [readLines, Option.map_eq_some_iff] at h
  obtain ⟨n, hn, rfl⟩ := h
  obtain ⟨_, hbits⟩ := levels_of_natOfLevels hn
  ext i hi
  have := hbits i (by simpa using hi)
  simpa [drivenLines, ← BitVec.getLsbD_eq_getElem, BitVec.getLsbD_ofNat, hi] using this

/-- Lines that carry `v` read as `v`. -/
@[simp] theorem readLines_drivenLines {w : Nat} (v : BitVec w) :
    readLines (drivenLines v) = some v := by
  cases h : readLines (drivenLines v) with
  | none =>
    obtain ⟨i, hi⟩ := (readLines_eq_none_iff _).mp h
    simp [drivenLines] at hi
  | some x =>
    have hx := eq_drivenLines_of_readLines h
    congr 1
    ext i hi
    have : levelOf (v.getLsbD i) = levelOf (x.getLsbD i) := by
      simpa [drivenLines, hi] using congrArg (fun l : Lines w => l[i]) hx
    revert this
    simp only [BitVec.getLsbD_eq_getElem hi]
    cases v[i] <;> cases x[i] <;> simp [levelOf]

/-- Lines read as `v` exactly when they carry `v`. -/
theorem readLines_eq_some_iff {w : Nat} (l : Lines w) (v : BitVec w) :
    readLines l = some v ↔ l = drivenLines v :=
  ⟨eq_drivenLines_of_readLines, fun h => h ▸ readLines_drivenLines v⟩

/-- Lines none of which has a level read as no value. -/
theorem readLines_unknownLines {w : Nat} (h : 0 < w) : readLines (unknownLines w) = none :=
  (readLines_eq_none_iff _).mpr ⟨⟨0, h⟩, by simp [unknownLines]⟩

/-- An operation reads `v` exactly when the port carries `v` and has settled. -/
theorem sampleInput_eq_ok_iff {w : Nat} (p out : Port) (i : InPort w) (v : BitVec w) :
    sampleInput p out i = .ok v ↔ readLines i.lines = some v ∧ i.settled = true := by
  unfold sampleInput
  split
  · simp_all
  · split <;> simp_all

/-- The two ways in which an operation's input gives it no meaning. -/
theorem sampleInput_eq_error_iff {w : Nat} (p out : Port) (i : InPort w) (r : Refusal) :
    sampleInput p out i = .error r ↔
      (readLines i.lines = none ∧ r = .undrivenInput p) ∨
      ((∃ v, readLines i.lines = some v) ∧ i.settled = false ∧ r = .sampledTooEarly out) := by
  unfold sampleInput
  cases readLines i.lines with
  | none => simpa using eq_comm
  | some v =>
    cases i.settled with
    | false => simpa using eq_comm
    | true => simp

/-- The tags that decode, and to what. -/
theorem decodeInstr_eq_ok_iff (t : Tag) (i : Instr) : decodeInstr t = .ok i ↔ t = encodeInstr i := by
  unfold decodeInstr
  split
  · cases i <;> simp_all [encodeInstr]
  · split <;> cases i <;> simp_all [encodeInstr]

/-- The operation a step runs is the one whose tag the host asks for. -/
theorem State.requested_eq_ok_iff (s : State) (i : Instr) :
    s.requested = .ok i ↔ s.request = some (encodeInstr i) := by
  unfold State.requested
  cases hr : s.request with
  | none => simp
  | some t =>
    simp only [Option.some.injEq, ← decodeInstr_eq_ok_iff]
    cases decodeInstr t <;> simp

/-- Presenting ENCODE: the operand's 32 bits stand on `enc_value`, settled, and the decoder's
ports and sample are as before. -/
theorem State.present_encode (s : State) (n : Nat) :
    (s.present (encodeInstr .encode) n).encHolds (BitVec.ofNat 32 n) ∧
    (s.present (encodeInstr .encode) n).request = some (encodeInstr .encode) ∧
    (s.present (encodeInstr .encode) n).decCode = s.decCode ∧
    (s.present (encodeInstr .encode) n).decSample = s.decSample := by
  rw [State.present, (decodeInstr_eq_ok_iff _ _).mpr rfl]
  simp only [State.encHolds, State.ask_encValue, State.ask_request, State.ask_decCode,
    State.ask_decSample, State.settleEncValue_lines, State.settleEncValue_settled,
    State.settleEncValue_decCode, State.settleEncValue_decSample, State.driveEncValue_lines,
    State.driveEncValue_decCode, State.driveEncValue_decSample, readLines_drivenLines, and_self]

/-- Presenting DECODE: the operand's 8 bits stand on `dec_code`, settled, and the encoder's ports
and sample are as before. -/
theorem State.present_decode (s : State) (n : Nat) :
    (s.present (encodeInstr .decode) n).decHolds (BitVec.ofNat 8 n) ∧
    (s.present (encodeInstr .decode) n).request = some (encodeInstr .decode) ∧
    (s.present (encodeInstr .decode) n).encValue = s.encValue ∧
    (s.present (encodeInstr .decode) n).encSample = s.encSample := by
  rw [State.present, (decodeInstr_eq_ok_iff _ _).mpr rfl]
  simp only [State.decHolds, State.ask_encValue, State.ask_request, State.ask_decCode,
    State.ask_encSample, State.settleDecCode_lines, State.settleDecCode_settled,
    State.settleDecCode_encValue, State.settleDecCode_encSample, State.driveDecCode_lines,
    State.driveDecCode_encValue, State.driveDecCode_encSample, readLines_drivenLines, and_self]

/-- A step that goes on ran the operation whose tag the host asks for. -/
theorem step_eq_next_iff (s s' : State) :
    step s = .next s' ↔ ∃ i, s.request = some (encodeInstr i) ∧ exec i s = .next s' := by
  simp only [← State.requested_eq_ok_iff, step]
  split <;> simp_all

end Sys2Proof.Machine
end

