-- ==== Sys2Proof/Laws/Decoder.lean ====
section
/-! SUPPORT. What the decoder's operations can do, said once. -/

namespace Sys2Proof.Machine

/-- What `dec_value` shows depends on `dec_code` alone. -/
theorem State.decValue_congr {s t : State} (h : s.decCode = t.decCode) :
    s.decValue = t.decValue := by
  simp only [State.decValue, readDecOperand, h]

/-- While a code is held, `dec_value` shows the function of it. -/
theorem State.decValue_of_decHolds {s : State} {c : Code} (h : s.decHolds c) :
    s.decValue = drivenLines (uf8Decode c) := by
  simp only [State.decValue, readDecOperand, (sampleInput_eq_ok_iff _ _ _ _).mpr h]

/-- All `dec_value` can show: nothing, or the function of a code that is held. -/
theorem State.decValue_cases (s : State) :
    s.decValue = unknownLines 32 ∨
      ∃ c, s.decHolds c ∧ s.decValue = drivenLines (uf8Decode c) := by
  cases h : readDecOperand s with
  | error r => left; simp only [State.decValue, h]
  | ok c =>
    have hc : s.decHolds c := (sampleInput_eq_ok_iff _ _ _ _).mp h
    exact .inr ⟨c, hc, s.decValue_of_decHolds hc⟩

/-- An operand that is refused leaves nothing on `dec_value`. -/
theorem State.decValue_of_error {s : State} {r : Refusal}
    (h : readDecOperand s = .error r) : s.decValue = unknownLines 32 := by
  simp only [State.decValue, h]

@[simp] theorem State.decValue_with_encSample (s : State) (c : Option Code) :
    State.decValue { s with encSample := c } = s.decValue := State.decValue_congr rfl
@[simp] theorem State.decValue_with_decSample (s : State) (x : Option Value) :
    State.decValue { s with decSample := x } = s.decValue := State.decValue_congr rfl
@[simp] theorem State.decValue_ask (s : State) (t : Tag) : (s.ask t).decValue = s.decValue :=
  State.decValue_congr rfl
@[simp] theorem State.decValue_settleEncValue (s : State) : s.settleEncValue.decValue = s.decValue :=
  State.decValue_congr rfl
@[simp] theorem State.decValue_driveEncValue (s : State) (l : Lines 32) :
    (s.driveEncValue l).decValue = s.decValue :=
  State.decValue_congr (State.driveEncValue_decCode s l)

/-- All DECODE can do: if it answers a next state, its input held a code, and only the sample changed,
to the function of that code. -/
theorem execDecode_eq_next_iff (s s' : State) :
    execDecode s = .next s' ↔
      ∃ c, s.decHolds c ∧ s' = { s with decSample := some (uf8Decode c) } := by
  unfold execDecode
  cases h : readDecOperand s with
  | error r =>
    simp only [reduceCtorEq, false_iff, not_exists, not_and]
    intro c hc
    simp [readDecOperand, (sampleInput_eq_ok_iff _ _ _ c).mpr hc] at h
  | ok c =>
    have hc : s.decHolds c := (sampleInput_eq_ok_iff _ _ _ c).mp h
    simp only [Host.Outcome.next.injEq, s.decValue_of_decHolds hc, readLines_drivenLines]
    constructor
    · rintro rfl
      exact ⟨c, hc, rfl⟩
    · rintro ⟨c', hc', rfl⟩
      have : c = c' := Option.some.inj (hc.1.symm.trans hc'.1)
      rw [this]

/-- DECODE completes on every code that is held. -/
theorem execDecode_of_decHolds {s : State} {c : Code} (h : s.decHolds c) :
    execDecode s = .next { s with decSample := some (uf8Decode c) } :=
  (execDecode_eq_next_iff _ _).mpr ⟨c, h, rfl⟩

/-- The two fields of a code are its quotient and remainder by 16. -/
theorem codeFields_toNat (c : Code) :
    (exponentField c).toNat = c.toNat / 16 ∧ (mantissaField c).toNat = c.toNat % 16 := by
  have := c.isLt
  simp [exponentField, mantissaField, BitVec.extractLsb'_toNat, Nat.shiftRight_eq_div_pow]
  omega

/-- The code packed from two fields, as a number. -/
theorem packCode_toNat (e m : Nibble) : (packCode e m).toNat = 16 * e.toNat + m.toNat := by
  revert e m; decide

/-- The offset table, as a number. -/
theorem offset_toNat {e : Nat} (h : e ≤ 15) : (offset e).toNat = 16 * (2 ^ e - 1) := by
  interval_cases e <;> decide

/-- The reconstructor, as a number: nothing wraps. -/
theorem reconstruct_toNat (e m : Nibble) :
    (reconstruct e m).toNat = m.toNat * 2 ^ e.toNat + 16 * (2 ^ e.toNat - 1) := by
  have he : e.toNat ≤ 15 := by have := e.isLt; omega
  have hm := m.isLt
  have hoff := offset_toNat he
  simp only [reconstruct, BitVec.toNat_add, BitVec.toNat_shiftLeft, BitVec.toNat_setWidth,
    Nat.shiftLeft_eq, hoff]
  generalize e.toNat = k at *
  generalize m.toNat = n at *
  interval_cases k <;> omega

end Sys2Proof.Machine
end

