-- ==== Sys2Proof/Laws/Encoder.lean ====
section
/-! SUPPORT. What the encoder's operations can do, said once. -/

namespace Sys2Proof.Machine

/-- What `enc_code` shows depends on `enc_value` alone. -/
theorem State.encCode_congr {s t : State} (h : s.encValue = t.encValue) :
    s.encCode = t.encCode := by
  simp only [State.encCode, readEncOperand, h]

/-- While a value is held, `enc_code` shows the function of it. -/
theorem State.encCode_of_encHolds {s : State} {v : Value} (h : s.encHolds v) :
    s.encCode = drivenLines (uf8Encode v) := by
  simp only [State.encCode, readEncOperand, (sampleInput_eq_ok_iff _ _ _ _).mpr h]

/-- All `enc_code` can show: nothing, or the function of a value that is held. -/
theorem State.encCode_cases (s : State) :
    s.encCode = unknownLines 8 ∨
      ∃ v, s.encHolds v ∧ s.encCode = drivenLines (uf8Encode v) := by
  cases h : readEncOperand s with
  | error r => left; simp only [State.encCode, h]
  | ok v =>
    have hv : s.encHolds v := (sampleInput_eq_ok_iff _ _ _ _).mp h
    exact .inr ⟨v, hv, s.encCode_of_encHolds hv⟩

/-- An operand that is refused leaves nothing on `enc_code`. -/
theorem State.encCode_of_error {s : State} {r : Refusal}
    (h : readEncOperand s = .error r) : s.encCode = unknownLines 8 := by
  simp only [State.encCode, h]

@[simp] theorem State.encCode_with_encSample (s : State) (c : Option Code) :
    State.encCode { s with encSample := c } = s.encCode := State.encCode_congr rfl
@[simp] theorem State.encCode_with_decSample (s : State) (x : Option Value) :
    State.encCode { s with decSample := x } = s.encCode := State.encCode_congr rfl
@[simp] theorem State.encCode_ask (s : State) (t : Tag) : (s.ask t).encCode = s.encCode :=
  State.encCode_congr rfl
@[simp] theorem State.encCode_settleDecCode (s : State) : s.settleDecCode.encCode = s.encCode :=
  State.encCode_congr rfl
@[simp] theorem State.encCode_driveDecCode (s : State) (l : Lines 8) :
    (s.driveDecCode l).encCode = s.encCode :=
  State.encCode_congr (State.driveDecCode_encValue s l)

/-- All ENCODE can do: if it answers a next state, its input held a value, and only the sample changed,
to the function of that value. -/
theorem execEncode_eq_next_iff (s s' : State) :
    execEncode s = .next s' ↔
      ∃ v, s.encHolds v ∧ s' = { s with encSample := some (uf8Encode v) } := by
  unfold execEncode
  cases h : readEncOperand s with
  | error r =>
    simp only [reduceCtorEq, false_iff, not_exists, not_and]
    intro v hv
    simp [readEncOperand, (sampleInput_eq_ok_iff _ _ _ v).mpr hv] at h
  | ok v =>
    have hv : s.encHolds v := (sampleInput_eq_ok_iff _ _ _ v).mp h
    simp only [Host.Outcome.next.injEq, s.encCode_of_encHolds hv, readLines_drivenLines]
    constructor
    · rintro rfl
      exact ⟨v, hv, rfl⟩
    · rintro ⟨v', hv', rfl⟩
      have : v = v' := Option.some.inj (hv.1.symm.trans hv'.1)
      rw [this]

/-- ENCODE completes on every value that is held. -/
theorem execEncode_of_encHolds {s : State} {v : Value} (h : s.encHolds v) :
    execEncode s = .next { s with encSample := some (uf8Encode v) } :=
  (execEncode_eq_next_iff _ _).mpr ⟨v, h, rfl⟩

theorem exec_encode (s : State) : exec .encode s = execEncode s := rfl
theorem exec_decode (s : State) : exec .decode s = execDecode s := rfl

/-- All an operation can do when it goes on: ENCODE or DECODE on the operand its own input holds. -/
theorem exec_eq_next_iff (i : Instr) (s s' : State) :
    exec i s = .next s' ↔
      (i = .encode ∧ ∃ v, s.encHolds v ∧ s' = { s with encSample := some (uf8Encode v) }) ∨
      (i = .decode ∧ ∃ c, s.decHolds c ∧ s' = { s with decSample := some (uf8Decode c) }) := by
  cases i with
  | encode =>
    rw [exec_encode, execEncode_eq_next_iff]
    simp only [true_and, reduceCtorEq, false_and, or_false]
  | decode =>
    rw [exec_decode, execDecode_eq_next_iff]
    simp only [true_and, reduceCtorEq, false_and, false_or]

/-- The step to the next bucket's start, as a number, where it does not wrap. -/
theorem nextOverflow_toNat {x : Value} (h : x.toNat < 2 ^ 30) :
    (nextOverflow x).toNat = 2 * x.toNat + 16 := by
  have hu : Config.bucketUnit.toNat = 16 := rfl
  simp only [nextOverflow, BitVec.toNat_add, BitVec.toNat_shiftLeft, Nat.shiftLeft_eq, hu]
  omega

/-- The inverse step undoes the step, where that does not wrap. -/
theorem prevOverflow_nextOverflow {x : Value} (h : x.toNat < 2 ^ 30) :
    prevOverflow (nextOverflow x) = x := by
  have hn := nextOverflow_toNat h
  have hu : Config.bucketUnit.toNat = 16 := rfl
  apply BitVec.eq_of_toNat_eq
  simp only [prevOverflow, BitVec.toNat_ushiftRight, BitVec.toNat_sub, hn, hu,
    Nat.shiftRight_eq_div_pow]
  omega

/-- The accumulated bucket start of an exponent in 0..15 is below `2^20`. -/
theorem seedOverflow_lt {e : Nat} (h : e ≤ 15) : (seedOverflow e).toNat < 2 ^ 20 := by
  interval_cases e <;> decide

/-- The accumulated bucket start is the offset table's entry. -/
theorem seedOverflow_eq_offset {e : Nat} (h : e ≤ 15) : seedOverflow e = offset e := by
  interval_cases e <;> decide

/-- The downward correction stops at a bucket that starts at or below `v`, not above the candidate. -/
theorem correctDown_spec (v : Value) (e : Nat) (he : e ≤ 15) :
    (correctDown v e (seedOverflow e)).exponent ≤ e ∧
    (correctDown v e (seedOverflow e)).overflow =
      seedOverflow (correctDown v e (seedOverflow e)).exponent ∧
    (correctDown v e (seedOverflow e)).overflow.toNat ≤ v.toNat := by
  induction e with
  | zero => simp [correctDown, seedOverflow]
  | succ e ih =>
    have hlt : (seedOverflow e).toNat < 2 ^ 30 :=
      lt_trans (seedOverflow_lt (by omega)) (by norm_num)
    rw [correctDown]
    split
    · rw [show prevOverflow (seedOverflow (e + 1)) = seedOverflow e from
        prevOverflow_nextOverflow hlt]
      obtain ⟨h1, h2, h3⟩ := ih (by omega)
      exact ⟨by omega, h2, h3⟩
    · rename_i h
      exact ⟨le_rfl, rfl, by simpa [BitVec.lt_def] using h⟩

/-- The upward correction stops at a bucket that starts at or below `v`, either the last one or one
whose successor starts above `v`. -/
theorem correctUp_spec (v : Value) (room : Nat) (b : Bucket) (hroom : b.exponent + room = 15)
    (hstart : b.overflow = seedOverflow b.exponent) (hle : b.overflow.toNat ≤ v.toNat) :
    b.exponent ≤ (correctUp v room b).exponent ∧ (correctUp v room b).exponent ≤ 15 ∧
    (correctUp v room b).overflow = seedOverflow (correctUp v room b).exponent ∧
    (correctUp v room b).overflow.toNat ≤ v.toNat ∧
    ((correctUp v room b).exponent < 15 →
      v.toNat < (seedOverflow ((correctUp v room b).exponent + 1)).toNat) := by
  induction room generalizing b with
  | zero => simp only [correctUp]; exact ⟨le_rfl, by omega, hstart, hle, by omega⟩
  | succ room ih =>
    rw [correctUp]
    split
    · rename_i h
      refine ⟨le_rfl, by omega, hstart, hle, fun _ => ?_⟩
      rw [seedOverflow, ← hstart]
      exact BitVec.lt_def.mp h
    · rename_i h
      obtain ⟨h1, h2, h3, h4, h5⟩ := ih ⟨b.exponent + 1, nextOverflow b.overflow⟩ (by simp; omega)
        (by simp [seedOverflow, hstart]) (by simpa [BitVec.lt_def] using h)
      exact ⟨by simp at h1; omega, h2, h3, h4, h5⟩

end Sys2Proof.Machine
end

