-- ==== Sys2Proof/Laws/PerInstr.lean ====
section
/-! SUPPORT. Statements made per instruction. -/

/-- The operation is well formed, and its tag is one of those the table has. -/
def Sys2Proof.Laws.TagInTable.Statement (i : Sys2Proof.Instr) : Prop :=
  i.wf = true ∧ Sys2Proof.tagWf (Sys2Proof.encodeInstr i) = true

theorem Sys2Proof.Laws.TagInTable.encode :
    Sys2Proof.Laws.TagInTable.Statement .encode := ⟨rfl, rfl⟩

theorem Sys2Proof.Laws.TagInTable.decode :
    Sys2Proof.Laws.TagInTable.Statement .decode := ⟨rfl, rfl⟩
end

