-- ==== Sys2Proof/Tests/Slice0.lean ====
section
/-! SUPPORT. Tests: spec vectors (spec/95_test_vectors.md), the well-formedness smoke, and for each
statement with hypotheses a state and operands that meet them all. Expected values are the spec's. -/

namespace Sys2Proof.Tests

open Sys2Proof.Machine

/-- A state whose `enc_value` carries `v`, held for T_PROP. -/
def encReady (v : Value) : State := (State.reset.driveEncValue (drivenLines v)).settleEncValue

/-- A state whose `dec_code` carries `c`, held for T_PROP. -/
def decReady (c : Code) : State := (State.reset.driveDecCode (drivenLines c)).settleDecCode

/-- The code that an outcome answers, if its next state shows that code on `enc_code`. -/
def codeShown : Host.Outcome State Fault Refusal → Option Code
  | .next s => if s.encSample = readLines s.encCode then s.encSample else none
  | _ => none

/-- The value that an outcome answers, if its next state shows that value on `dec_value`. -/
def valueShown : Host.Outcome State Fault Refusal → Option Value
  | .next s => if s.decSample = readLines s.decValue then s.decSample else none
  | _ => none

/-- The reason of an outcome's refusal. -/
def refusal : Host.Outcome State Fault Refusal → Option Refusal
  | .refused r => some r
  | _ => none

/-! ### Decoding and well-formedness -/

/-- opcode_table.json: bit 0 of the tag is 0 for ENCODE, 1 for DECODE. -/
theorem test_tags_decode :
    decodeTableWord 8 0b00000000 = some .encode ∧ decodeTableWord 8 0b00000001 = some .decode := by
  decide

/-- 95 L2.4: tag 2 is refused by name (R47). -/
theorem test_tag_two_refused :
    refusal (step (State.reset.withFetchWord 8 2)) = some (.noSuchOperation 2) := by decide

theorem test_tagWf_refuses_two : tagWf 0 = true ∧ tagWf 1 = true ∧ tagWf 2 = false := by decide

/-- R14: the ports are 32 and 8 wide, so 2^32 and 256 fit none. -/
theorem test_lineWf_refuses_wide_literals :
    lineWf [] ⟨.encode, .literal (2 ^ 32)⟩ = false ∧
    lineWf [] ⟨.encode, .literal (2 ^ 32 - 1)⟩ = true ∧
    lineWf [] ⟨.decode, .literal 256⟩ = false ∧ lineWf [] ⟨.decode, .literal 255⟩ = true := by decide

/-- R48: `x` is an earlier result; a 32-bit result does not fit `dec_code`. -/
theorem test_lineWf_refuses_results :
    lineWf [.decode] ⟨.encode, .result 1⟩ = false ∧ lineWf [.decode] ⟨.encode, .result 0⟩ = true ∧
    lineWf [.decode] ⟨.decode, .result 0⟩ = false ∧ lineWf [.encode] ⟨.decode, .result 0⟩ = true ∧
    linesWf [] (roundTripLines 0 (.literal 0x9A)) = true ∧
    linesWf [] (quantLines 0 (.literal 1000) ++ quantLines 2 (.result 1)) = true ∧
    linesWf [] (quantLines 1 (.literal 1000)) = false := by decide

/-! ### One step -/

/-- 95 L2.4: tag 0, operand 0x64 gives 0x2D. -/
theorem test_step_encode_100 :
    codeShown (step (State.reset.withFetchWord 40 0x0000006400)) = some 0x2D := by decide

/-- 95 L2.4: tag 1, operand 0x2D gives 100. -/
theorem test_step_decode_2D :
    valueShown (step (State.reset.withFetchWord 16 0x2D01)) = some 100 := by decide

/-- 95 L2.4 and P3: both ends of the range, after reset. -/
theorem test_exec_encode_ends :
    codeShown (exec .encode (encReady 0)) = some 0x00 ∧
    codeShown (exec .encode (encReady 0xFFFFFFFF)) = some 0xFF := by decide

/-- 95 P4, line 1: with both inputs held and no operation run, both output ports show their result. -/
theorem test_ports_show_without_operation :
    readLines ((encReady 48).driveDecCode (drivenLines 0x20)).settleDecCode.encCode = some 0x20 ∧
    readLines ((encReady 48).driveDecCode (drivenLines 0x20)).settleDecCode.decValue = some 48 := by
  decide

/-- R30: with the input driven and not yet held, the port shows nothing. -/
theorem test_port_before_settling :
    (State.reset.driveEncValue (drivenLines 100)).encCode = unknownLines 8 := by decide

/-- 95 L2.4: one undriven bit, bit 3, refuses DECODE (R24). -/
theorem test_undriven_bit_three :
    refusal (exec .decode ((State.reset.driveDecCode
      ((drivenLines 0x2D#8).set 3 .unknown)).settleDecCode)) =
      some (.undrivenInput .decCode) := by decide

/-- 95 L2.4: ENCODE's output sampled before T_PROP is refused (R30). -/
theorem test_early_sample :
    refusal (exec .encode (State.reset.driveEncValue (drivenLines 100))) =
      some (.sampledTooEarly .encCode) := by decide

/-- R7: line `i` of a port is bit `i`; 0x2A is 00101010. -/
theorem test_line_order : (drivenLines 0x2A#8).toList =
    [.zero, .one, .zero, .one, .zero, .one, .zero, .zero] := by decide

/-! ### The spec's vectors -/

/-- 95 L2.2, L2.5: the fast path's end, every kind of bucket boundary, the clamp and both seeds. -/
theorem test_encode_vectors :
    [(0, 0x00), (15, 0x0F), (16, 0x10), (17, 0x10), (18, 0x11), (31, 0x17), (32, 0x18), (47, 0x1F),
     (48, 0x20), (100, 0x2D), (111, 0x2F), (1000, 0x5F), (1008, 0x60), (13296, 0x9A), (13807, 0x9A),
     (13808, 0x9B), (123456, 0xCE), (524271, 0xEF), (524272, 0xF0), (0xF7FEF, 0xFE), (0xF7FF0, 0xFF),
     (0xFFFEF, 0xFF), (0xFFFF0, 0xFF), (0x7FFFF0, 0xFF), (0x80000000, 0xFF)].all
      (fun p : Nat × Nat => uf8Encode (BitVec.ofNat 32 p.1) == BitVec.ofNat 8 p.2) = true := by decide

/-- 95 L2.1: the first and last column, and L2.5. -/
theorem test_decode_vectors :
    [(0x00, 0), (0x0F, 15), (0x10, 16), (0x1F, 46), (0x20, 48), (0x2A, 88), (0x7F, 3952),
     (0x9A, 13296), (0xCE, 122864), (0xEF, 507888), (0xF0, 524272), (0xFE, 983024), (0xFF, 1015792)].all
      (fun p : Nat × Nat => uf8Decode (BitVec.ofNat 8 p.1) == BitVec.ofNat 32 p.2) = true := by decide

/-- 95 L2.3: lz of non-zero values. -/
theorem test_lz_vectors :
    [(0x1, 31), (0x3, 30), (0xF, 28), (0x10, 27), (0x1F, 27), (0x20, 26), (0xF7FF0, 12),
     (0x7FFFFFFF, 1), (0x80000000, 0)].all
      (fun p : Nat × Nat => lz (BitVec.ofNat 32 p.1) == BitVec.ofNat 5 p.2) = true := by decide

/-- The results that the host holds after an outcome. -/
def resultsHeld : Host.Outcome Session Fault Refusal → List HostValue
  | .next h => h.results
  | _ => []

/-- 95 P2, lines 1 to 4: QUANT 1000, then QUANT of its result t1; each DECODE reads its own code. -/
theorem test_quant_twice :
    resultsHeld (runLines ⟨State.reset, []⟩ (quantLines 0 (.literal 1000) ++ quantLines 2 (.result 1))) =
      [.code 0x5F, .value 976, .code 0x5F, .value 976] := by decide

/-- R49 and 95 L2.5: ROUNDTRIP 0x9A after an earlier result reads its own t, not t0. -/
theorem test_roundtrip_after_result :
    resultsHeld (runRoundTrip ⟨State.reset, [.code 0]⟩ (.literal 0x9A)) =
      [.code 0, .value 13296, .code 0x9A] := by decide

/-- A line that names no earlier result is refused (R48). -/
theorem test_ill_formed_line :
    (match runLine ⟨State.reset, []⟩ ⟨.encode, .result 0⟩ with
      | .refused r => some r
      | _ => none) = some .illFormedLine := by decide

/-! ### Witnesses: states and operands that meet a statement's hypotheses -/

/-- `encHolds`: EVERY value can be held on `enc_value`, the boundary values of every clause about
ENCODE (0, 15, 16, 0xF7FEF, 0xF7FF0, 0xFFFF0, 2^32 - 1) among them. -/
theorem witness_encHolds (v : Value) : (encReady v).encHolds v := by
  simp only [encReady, State.encHolds, State.settleEncValue_lines, State.settleEncValue_settled,
    State.driveEncValue_lines, readLines_drivenLines, and_self]

/-- `decHolds`: EVERY code can be held on `dec_code`. -/
theorem witness_decHolds (c : Code) : (decReady c).decHolds c := by
  simp only [decReady, State.decHolds, State.settleDecCode_lines, State.settleDecCode_settled,
    State.driveDecCode_lines, readLines_drivenLines, and_self]

/-- The hypothesis of the statements about ENCODE, at a concrete state: the largest value. -/
theorem witness_encHolds_max : (encReady 0xFFFFFFFF).encHolds 0xFFFFFFFF := witness_encHolds _

/-- The hypothesis of the statements about DECODE, at a concrete state: the largest code. -/
theorem witness_decHolds_max : (decReady 0xFF).decHolds 0xFF := witness_decHolds _

/-- OtherTagsAreRefusedByName. -/
theorem witness_otherTag :
    (State.reset.ask 2).request = some 2#8 ∧ 2#8 ≠ 0#8 ∧ 2#8 ≠ 1#8 := by decide

/-- StepRunsTheRequestedOperation. -/
theorem witness_requestedOperation :
    (State.reset.ask 1).request = some 1#8 ∧ decodeInstr 1#8 = .ok .decode := by decide

/-- NoStepWithoutRequest. -/
theorem witness_noRequest : State.reset.request = none := rfl

/-- DecodeIsTotalAndStrictlyIncreasing: into a new exponent, and within one. -/
theorem witness_nextCode :
    ((decReady 0x0F).decHolds 0x0F ∧ (decReady 0x10).decHolds 0x10 ∧
      (0x10#8).toNat = (0x0F#8).toNat + 1 ∧ (mantissaField 0x10).toNat = 0) ∧
    ((decReady 0xFE).decHolds 0xFE ∧ (decReady 0xFF).decHolds 0xFF ∧
      (0xFF#8).toNat = (0xFE#8).toNat + 1 ∧ (mantissaField 0xFF).toNat ≠ 0) := by decide

/-- CounterFindsTheHighestSetBit, at both ends. -/
theorem witness_nonzero : (1#32 : Value) ≠ 0#32 ∧ (0xFFFFFFFF#32 : Value) ≠ 0#32 := by decide

/-- CounterRangeWithinEncode: msb 4, 5 and at least 20. -/
theorem witness_mainPath :
    fastPath 16 = false ∧ (msbOf (lz 16)).toNat = 4 ∧ fastPath 32 = false ∧
    (msbOf (lz 32)).toNat = 5 ∧ fastPath 0x100000 = false ∧ (msbOf (lz 0x100000)).toNat = 20 := by
  decide

/-- NoResultDependsOnTheCounterAtZero, first half: at 0 and at 15. -/
theorem witness_belowSixteen : (0#32).toNat < 16 ∧ (15#32).toNat < 16 := by decide

/-- NoResultDependsOnTheCounterAtZero, second half: a counter by logarithm is right on the non-zero
values. -/
theorem witness_rightCounter (v : Value) (h : v ≠ 0#32) :
    2 ^ (31 - (BitVec.ofNat 5 (31 - v.toNat.log2)).toNat) ≤ v.toNat ∧
    v.toNat < 2 ^ (31 - (BitVec.ofNat 5 (31 - v.toNat.log2)).toNat + 1) := by
  have hv : v.toNat ≠ 0 := fun h' => h (BitVec.eq_of_toNat_eq (by simpa using h'))
  have hk : v.toNat.log2 < 32 := (Nat.log2_lt hv).mpr v.isLt
  have he : 31 - (BitVec.ofNat 5 (31 - v.toNat.log2)).toNat = v.toNat.log2 := by
    rw [BitVec.toNat_ofNat]; omega
  rw [he]
  exact ⟨Nat.log2_self_le hv, Nat.lt_log2_self⟩

/-- BucketSelectorFindsTheGreatestBucket and QuantizerFloorsAndClamps: at 16, below the clamp and in it. -/
theorem witness_atLeastSixteen :
    16 ≤ (16#32).toNat ∧ 16 ≤ (0xFFFEF#32).toNat ∧ 16 ≤ (0xFFFF0#32).toNat := by decide

/-- AnyCandidateLeadsToTheSameBucket: the lowest and the highest start. -/
theorem witness_candidates : (0 ≤ 15) ∧ (15 ≤ 15) := by decide

/-- FirstSixteenValuesAreTheirOwnCodes, both clauses, at 15. -/
theorem witness_fastPath :
    (15#32).toNat < 16 ∧ (encReady 15).encHolds 15 ∧
    (decReady 15).decHolds ((15#32 : Value).setWidth 8) := by decide

/-- EncodeIsMonotoneWithExactCells: 95 L2.5, 4079 and 4080. -/
theorem witness_monotone :
    (encReady 4079).encHolds 4079 ∧ (encReady 4080).encHolds 4080 ∧
    (4079#32).toNat ≤ (4080#32).toNat := by decide

/-- UndrivenLineIsRefused, settled: an input that is held with one line undriven. -/
theorem witness_undriven_settled :
    (State.reset.driveEncValue ((drivenLines 100#32).set 31 .unknown)).settleEncValue.encValue.lines[
      (31 : Fin 32)] = .unknown ∧
    (State.reset.driveEncValue ((drivenLines 100#32).set 31 .unknown)).settleEncValue.encValue.settled
      = true ∧
    (State.reset.driveDecCode ((drivenLines 0x2D#8).set 3 .unknown)).settleDecCode.decCode.lines[
      (3 : Fin 8)] = .unknown ∧
    (State.reset.driveDecCode ((drivenLines 0x2D#8).set 3 .unknown)).settleDecCode.decCode.settled
      = true := by decide

/-- UndrivenLineIsRefused, unsettled: the first and the last line of each input. -/
theorem witness_undriven :
    State.reset.encValue.lines[(0 : Fin 32)] = .unknown ∧
    State.reset.encValue.lines[(31 : Fin 32)] = .unknown ∧
    State.reset.decCode.lines[(0 : Fin 8)] = .unknown ∧
    State.reset.decCode.lines[(7 : Fin 8)] = .unknown := by decide

/-- EarlySampleIsRefused, all four clauses. -/
theorem witness_early :
    (readLines (State.reset.driveEncValue (drivenLines 100#32)).encValue.lines = some 100#32 ∧
      (State.reset.driveEncValue (drivenLines 100#32)).encValue.settled = false) ∧
    (readLines (State.reset.driveDecCode (drivenLines 0x2D#8)).decCode.lines = some 0x2D#8 ∧
      (State.reset.driveDecCode (drivenLines 0x2D#8)).decCode.settled = false) ∧
    (readLines (encReady 100).encValue.lines = some 100#32 ∧ (101#32 : Value) ≠ 100#32) ∧
    (readLines (decReady 0x2D).decCode.lines = some 0x2D#8 ∧ (0x25#8 : Code) ≠ 0x2D#8) := by decide

/-- ShorthandsRunAsTheirLines: a literal, and an earlier result of either kind. -/
theorem witness_shorthandOperands :
    (LineOperand.literal 0x9A = .literal (0x9A#8).toNat) ∧
    (LineOperand.literal 1000 = .literal (1000#32).toNat) ∧
    ([HostValue.code 0x5F, .value 976][0]? = some (.code 0x5F)) ∧
    ([HostValue.code 0x5F, .value 976][1]? = some (.value 976)) := by decide

/-- DatapathsDoNotInteract: 95 P4, line 1. -/
theorem witness_bothHeld :
    ((encReady 48).driveDecCode (drivenLines 0x20)).settleDecCode.encHolds 48 ∧
    ((encReady 48).driveDecCode (drivenLines 0x20)).settleDecCode.decHolds 0x20 := by decide

/-- The state in which the host presents ENCODE 100. -/
def presented : State := (encReady 100).ask 0

/-- The state after that step. -/
def answered : State := { presented with encSample := some 0x2D }

/-- OperationsAreIdempotent and EveryStepKeepsSamplesFollowingPorts: the invariant holds and the step
goes on. -/
theorem witness_step : presented.samplesFollowPorts ∧ step presented = .next answered :=
  ⟨⟨Or.inl (by decide), Or.inl (by decide)⟩, by
    have h : step presented = .next { presented with encSample := some (uf8Encode 100) } :=
      (step_eq_next_iff _ _).mpr ⟨.encode, by decide, by
        rw [exec_encode]; exact execEncode_of_encHolds (by decide)⟩
    rw [h, show uf8Encode 100 = 0x2D by decide]; rfl⟩

/-- EveryHostActionKeepsSamplesFollowingPorts and DefinedOutputIsTheFunctionOfItsInput: the invariant
holds where `enc_code` shows a code and it has been sampled. -/
theorem witness_invariant :
    answered.samplesFollowPorts ∧ readLines answered.encCode = some 0x2D ∧
    answered.encSample = some 0x2D :=
  ⟨⟨Or.inr (by decide), Or.inl (by decide)⟩, by decide, by decide⟩

end Sys2Proof.Tests
end

/-! ## The state's statements: samples, ports and requests

The invariant `State.samplesFollowPorts` speaks of what the output ports show. Both ports are functions
of their inputs, so it is read here once as a fact about what the inputs hold
(`State.samplesFollowPorts_iff`); the proofs about steps and host actions go through that form. -/

namespace Sys2Proof.Machine

/-! ### Ports -/

@[simp] theorem unknownLines_getElem {w : Nat} (i : Fin w) : (unknownLines w)[i] = .unknown := by
  simp [unknownLines]

/-- `enc_code` as a function of its input port alone (R17). -/
def encCodeOf (p : InPort 32) : Lines 8 := State.encCode { State.reset with encValue := p }

theorem State.encCode_eq_encCodeOf (s : State) : s.encCode = encCodeOf s.encValue :=
  State.encCode_congr rfl

/-- `dec_value` as a function of its input port alone (R17). -/
def decValueOf (p : InPort 8) : Lines 32 := State.decValue { State.reset with decCode := p }

theorem State.decValue_eq_decValueOf (s : State) : s.decValue = decValueOf s.decCode :=
  State.decValue_congr rfl

/-- Before its input is held for T_PROP, `enc_code` shows nothing (R30). -/
theorem State.encCode_of_not_settled {s : State} (h : s.encValue.settled = false) :
    s.encCode = unknownLines 8 := by
  obtain hunknown | ⟨v, ⟨_, hsettled⟩, _⟩ := s.encCode_cases
  · exact hunknown
  · exact absurd hsettled (by simp [h])

/-- Before its input is held for T_PROP, `dec_value` shows nothing (R30). -/
theorem State.decValue_of_not_settled {s : State} (h : s.decCode.settled = false) :
    s.decValue = unknownLines 32 := by
  obtain hunknown | ⟨c, ⟨_, hsettled⟩, _⟩ := s.decValue_cases
  · exact hunknown
  · exact absurd hsettled (by simp [h])

theorem State.readLines_encCode_of_encHolds {s : State} {v : Value} (h : s.encHolds v) :
    readLines s.encCode = some (uf8Encode v) := by
  rw [s.encCode_of_encHolds h, readLines_drivenLines]

theorem State.readLines_decValue_of_decHolds {s : State} {c : Code} (h : s.decHolds c) :
    readLines s.decValue = some (uf8Decode c) := by
  rw [s.decValue_of_decHolds h, readLines_drivenLines]

theorem State.readLines_encCode_eq_some_iff (s : State) (c : Code) :
    readLines s.encCode = some c ↔ ∃ v, s.encHolds v ∧ c = uf8Encode v := by
  constructor
  · intro hread
    obtain hunknown | ⟨v, hv, _⟩ := s.encCode_cases
    · rw [hunknown, readLines_unknownLines (by decide)] at hread
      cases hread
    · exact ⟨v, hv, Option.some.inj (hread.symm.trans (s.readLines_encCode_of_encHolds hv))⟩
  · rintro ⟨v, hv, rfl⟩
    exact s.readLines_encCode_of_encHolds hv

theorem State.readLines_decValue_eq_some_iff (s : State) (x : Value) :
    readLines s.decValue = some x ↔ ∃ c, s.decHolds c ∧ x = uf8Decode c := by
  constructor
  · intro hread
    obtain hunknown | ⟨c, hc, _⟩ := s.decValue_cases
    · rw [hunknown, readLines_unknownLines (by decide)] at hread
      cases hread
    · exact ⟨c, hc, Option.some.inj (hread.symm.trans (s.readLines_decValue_of_decHolds hc))⟩
  · rintro ⟨c, hc, rfl⟩
    exact s.readLines_decValue_of_decHolds hc

/-- Driving a value and holding it does the host's duty, from every state (R96). -/
theorem State.encHolds_settle_drive (s : State) (v : Value) :
    (s.driveEncValue (drivenLines v)).settleEncValue.encHolds v := by
  simp only [State.encHolds, State.settleEncValue_lines, State.settleEncValue_settled,
    State.driveEncValue_lines, readLines_drivenLines, and_self]

/-- Driving a code and holding it does the host's duty, from every state (R96). -/
theorem State.decHolds_settle_drive (s : State) (c : Code) :
    (s.driveDecCode (drivenLines c)).settleDecCode.decHolds c := by
  simp only [State.decHolds, State.settleDecCode_lines, State.settleDecCode_settled,
    State.driveDecCode_lines, readLines_drivenLines, and_self]

/-! ### Steps -/

theorem step_eq_exec_of_request {s : State} {i : Instr} (h : s.request = some (encodeInstr i)) :
    step s = exec i s := by
  simp only [step, (s.requested_eq_ok_iff i).mpr h]

theorem step_of_no_request {s : State} (h : s.request = none) :
    step s = .refused .noOperation := by
  simp only [step, State.requested, h]

theorem execEncode_of_operand_error {s : State} {r : Refusal} (h : readEncOperand s = .error r) :
    execEncode s = .refused r := by
  simp only [execEncode, h]

theorem execDecode_of_operand_error {s : State} {r : Refusal} (h : readDecOperand s = .error r) :
    execDecode s = .refused r := by
  simp only [execDecode, h]

/-- An unknown line refuses an input, whether or not it has settled (log entry 11). -/
theorem sampleInput_of_unknown_line {w : Nat} (p out : Port) {port : InPort w} {i : Fin w}
    (h : port.lines[i] = .unknown) : sampleInput p out port = .error (.undrivenInput p) :=
  (sampleInput_eq_error_iff _ _ _ _).mpr (.inl ⟨(readLines_eq_none_iff _).mpr ⟨i, h⟩, rfl⟩)

/-- ENCODE, presented from any state, answers the code of the operand's low 32 bits; its input still
holds them, and the decoder's ports and sample are as before. -/
theorem step_present_encode (s : State) (n : Nat) :
    ∃ s', step (s.present (encodeInstr .encode) n) = .next s' ∧
      s'.encHolds (BitVec.ofNat 32 n) ∧ s'.encSample = some (uf8Encode (BitVec.ofNat 32 n)) ∧
      s'.decCode = s.decCode ∧ s'.decSample = s.decSample := by
  obtain ⟨hholds, hrequest, hcode, hsample⟩ := s.present_encode n
  generalize s.present (encodeInstr .encode) n = t at *
  refine ⟨{ t with encSample := some (uf8Encode (BitVec.ofNat 32 n)) }, ?_,
    hholds, rfl, hcode, hsample⟩
  rw [step_eq_exec_of_request hrequest, exec_encode, execEncode_of_encHolds hholds]

/-- DECODE, presented from any state, answers the value of the operand's low 8 bits; its input still
holds them, and the encoder's ports and sample are as before. -/
theorem step_present_decode (s : State) (n : Nat) :
    ∃ s', step (s.present (encodeInstr .decode) n) = .next s' ∧
      s'.decHolds (BitVec.ofNat 8 n) ∧ s'.decSample = some (uf8Decode (BitVec.ofNat 8 n)) ∧
      s'.encValue = s.encValue ∧ s'.encSample = s.encSample := by
  obtain ⟨hholds, hrequest, hvalue, hsample⟩ := s.present_decode n
  generalize s.present (encodeInstr .decode) n = t at *
  refine ⟨{ t with decSample := some (uf8Decode (BitVec.ofNat 8 n)) }, ?_,
    hholds, rfl, hvalue, hsample⟩
  rw [step_eq_exec_of_request hrequest, exec_decode, execDecode_of_decHolds hholds]

/-! ### The invariant, one datapath at a time -/

/-- A sample of `enc_code` is the code of the value that `enc_value` holds. -/
def State.encSampleIsOfInput (s : State) : Prop :=
  ∀ c, s.encSample = some c → ∃ v, s.encHolds v ∧ c = uf8Encode v

/-- A sample of `dec_value` is the value of the code that `dec_code` holds. -/
def State.decSampleIsOfInput (s : State) : Prop :=
  ∀ x, s.decSample = some x → ∃ c, s.decHolds c ∧ x = uf8Decode c

/-- An option is none or a given one exactly when its value, if any, is the given one's. -/
theorem eq_none_or_eq_iff_forall_some {α : Type} (x y : Option α) :
    (x = none ∨ x = y) ↔ ∀ a, x = some a → y = some a := by
  cases x with
  | none => simp
  | some a => simp [eq_comm]

/-- The invariant in terms of the inputs: each sample is its operation's answer to the operand held. -/
theorem State.samplesFollowPorts_iff (s : State) :
    s.samplesFollowPorts ↔ s.encSampleIsOfInput ∧ s.decSampleIsOfInput := by
  simp only [State.samplesFollowPorts, eq_none_or_eq_iff_forall_some,
    State.readLines_encCode_eq_some_iff, State.readLines_decValue_eq_some_iff,
    State.encSampleIsOfInput, State.decSampleIsOfInput]

/-- What leaves the encoder's input and sample as they are keeps its half of the invariant. -/
theorem State.encSampleIsOfInput_congr {s t : State} (h : s.encSampleIsOfInput)
    (hvalue : t.encValue = s.encValue) (hsample : t.encSample = s.encSample) :
    t.encSampleIsOfInput := by
  unfold State.encSampleIsOfInput State.encHolds
  rw [hvalue, hsample]
  exact h

/-- What leaves the decoder's input and sample as they are keeps its half of the invariant. -/
theorem State.decSampleIsOfInput_congr {s t : State} (h : s.decSampleIsOfInput)
    (hcode : t.decCode = s.decCode) (hsample : t.decSample = s.decSample) :
    t.decSampleIsOfInput := by
  unfold State.decSampleIsOfInput State.decHolds
  rw [hcode, hsample]
  exact h

/-- The sample that ENCODE takes is of the value held. -/
theorem State.encSampleIsOfInput_of_encHolds {s : State} {v : Value} (h : s.encHolds v) :
    State.encSampleIsOfInput { s with encSample := some (uf8Encode v) } :=
  fun _ hc => ⟨v, h, (Option.some.inj hc).symm⟩

/-- The sample that DECODE takes is of the code held. -/
theorem State.decSampleIsOfInput_of_decHolds {s : State} {c : Code} (h : s.decHolds c) :
    State.decSampleIsOfInput { s with decSample := some (uf8Decode c) } :=
  fun _ hx => ⟨c, h, (Option.some.inj hx).symm⟩

/-- Driving `enc_value` either changes nothing or discards the sample. -/
theorem State.encSampleIsOfInput_driveEncValue {s : State} (h : s.encSampleIsOfInput)
    (l : Lines 32) : (s.driveEncValue l).encSampleIsOfInput := by
  by_cases hl : l = s.encValue.lines
  · rwa [hl, State.driveEncValue_same]
  · rw [s.driveEncValue_of_ne l hl]
    intro c hc
    cases hc

/-- Driving `dec_code` either changes nothing or discards the sample. -/
theorem State.decSampleIsOfInput_driveDecCode {s : State} (h : s.decSampleIsOfInput)
    (l : Lines 8) : (s.driveDecCode l).decSampleIsOfInput := by
  by_cases hl : l = s.decCode.lines
  · rwa [hl, State.driveDecCode_same]
  · rw [s.driveDecCode_of_ne l hl]
    intro x hx
    cases hx

/-- Holding `enc_value` keeps the value it holds, so that a sample stays one of it. -/
theorem State.encSampleIsOfInput_settleEncValue {s : State} (h : s.encSampleIsOfInput) :
    s.settleEncValue.encSampleIsOfInput := by
  intro c hc
  obtain ⟨v, ⟨hread, _⟩, hcode⟩ := h c hc
  exact ⟨v, ⟨hread, s.settleEncValue_settled⟩, hcode⟩

/-- Holding `dec_code` keeps the code it holds, so that a sample stays one of it. -/
theorem State.decSampleIsOfInput_settleDecCode {s : State} (h : s.decSampleIsOfInput) :
    s.settleDecCode.decSampleIsOfInput := by
  intro x hx
  obtain ⟨c, ⟨hread, _⟩, hvalue⟩ := h x hx
  exact ⟨c, ⟨hread, s.settleDecCode_settled⟩, hvalue⟩

/-- An operation that goes on changes one sample, to its answer to the operand held. -/
theorem exec_keeps_samplesFollowPorts {i : Instr} {s s' : State} (h : s.samplesFollowPorts)
    (hexec : exec i s = .next s') : s'.samplesFollowPorts := by
  rw [State.samplesFollowPorts_iff] at h ⊢
  obtain ⟨henc, hdec⟩ := h
  obtain ⟨_, v, hv, rfl⟩ | ⟨_, c, hc, rfl⟩ := (exec_eq_next_iff i s s').mp hexec
  · exact ⟨State.encSampleIsOfInput_of_encHolds hv, hdec⟩
  · exact ⟨henc, State.decSampleIsOfInput_of_decHolds hc⟩

/-! ### The statements, tier 3 -/

/-- Settles O35: a step that goes on is one operation, and an operation keeps the invariant. -/
theorem everyStepKeepsSamplesFollowingPorts :
    Obligations.EveryStepKeepsSamplesFollowingPorts := by
  intro s s' hinv hstep
  obtain ⟨i, _, hexec⟩ := (step_eq_next_iff s s').mp hstep
  exact exec_keeps_samplesFollowPorts hinv hexec

/-! ### The statements, tier 2 -/

/-- Settles O29. -/
theorem undrivenLineIsRefused : Obligations.UndrivenLineIsRefused := by
  constructor
  · intro s i hline
    exact execEncode_of_operand_error (sampleInput_of_unknown_line _ _ hline)
  · intro s i hline
    exact execDecode_of_operand_error (sampleInput_of_unknown_line _ _ hline)

/-- Settles O33: the answer is the function of the operand's bits that the port has lines for. -/
theorem presentedOperationForgetsThePast : Obligations.PresentedOperationForgetsThePast := by
  intro n
  constructor
  · refine ⟨uf8Encode (BitVec.ofNat 32 n), fun s => ?_⟩
    obtain ⟨s', hstep, hholds, hanswer, hcode, hsample⟩ := step_present_encode s n
    exact ⟨s', hstep, hanswer, State.readLines_encCode_of_encHolds hholds, hcode,
      State.decValue_congr hcode, hsample⟩
  · refine ⟨uf8Decode (BitVec.ofNat 8 n), fun s => ?_⟩
    obtain ⟨s', hstep, hholds, hanswer, hvalue, hsample⟩ := step_present_decode s n
    exact ⟨s', hstep, hanswer, State.readLines_decValue_of_decHolds hholds, hvalue,
      State.encCode_congr hvalue, hsample⟩

/-- Settles O36, by the host's actions: each touches at most one datapath. -/
theorem everyHostActionKeepsSamplesFollowingPorts :
    Obligations.EveryHostActionKeepsSamplesFollowingPorts := by
  intro s a hinv
  rw [State.samplesFollowPorts_iff] at hinv ⊢
  obtain ⟨henc, hdec⟩ := hinv
  cases a with
  | driveEncValue l =>
    exact ⟨State.encSampleIsOfInput_driveEncValue henc l,
      State.decSampleIsOfInput_congr hdec (s.driveEncValue_decCode l) (s.driveEncValue_decSample l)⟩
  | driveDecCode l =>
    exact ⟨State.encSampleIsOfInput_congr henc (s.driveDecCode_encValue l)
      (s.driveDecCode_encSample l), State.decSampleIsOfInput_driveDecCode hdec l⟩
  | settleEncValue => exact ⟨State.encSampleIsOfInput_settleEncValue henc, hdec⟩
  | settleDecCode => exact ⟨henc, State.decSampleIsOfInput_settleDecCode hdec⟩
  | ask t => exact ⟨henc, hdec⟩

/-- Settles O37: the samples' half is the invariant as `State.samplesFollowPorts_iff` reads it. -/
theorem definedOutputIsTheFunctionOfItsInput :
    Obligations.DefinedOutputIsTheFunctionOfItsInput :=
  ⟨State.readLines_encCode_eq_some_iff, State.readLines_decValue_eq_some_iff,
    fun s => s.samplesFollowPorts_iff.mp⟩

/-- Settles O38. -/
theorem outputsShowTheFunctionOnceInputsSettle :
    Obligations.OutputsShowTheFunctionOnceInputsSettle := by
  constructor
  · intro s v
    refine ⟨State.encCode_of_encHolds (s.encHolds_settle_drive v), ?_⟩
    rw [State.decValue_settleEncValue, State.decValue_driveEncValue]
  · intro s c
    refine ⟨State.decValue_of_decHolds (s.decHolds_settle_drive c), ?_⟩
    rw [State.encCode_settleDecCode, State.encCode_driveDecCode]

/-! ### The statements, tier 1 -/

/-- Settles O3: a tag that decodes to an operation is that operation's tag. -/
theorem stepRunsTheRequestedOperation : Obligations.StepRunsTheRequestedOperation := by
  intro s t i hrequest hdecode
  rw [(decodeInstr_eq_ok_iff t i).mp hdecode] at hrequest
  exact step_eq_exec_of_request hrequest

/-- Settles O4. -/
theorem noStepWithoutRequest : Obligations.NoStepWithoutRequest :=
  ⟨fun _ => step_of_no_request, step_of_no_request rfl⟩

/-- Settles O5: the inputs are unknown lines that nothing has held, so that the outputs show nothing. -/
theorem resetDefinesNoLine : Obligations.ResetDefinesNoLine := by
  have henc : State.reset.encCode = unknownLines 8 := State.encCode_of_not_settled rfl
  have hdec : State.reset.decValue = unknownLines 32 := State.decValue_of_not_settled rfl
  refine ⟨fun i => ⟨unknownLines_getElem i, ?_⟩, fun i => ⟨unknownLines_getElem i, ?_⟩,
    rfl, rfl, rfl, rfl, rfl⟩
  · rw [hdec, unknownLines_getElem]
  · rw [henc, unknownLines_getElem]

/-- Settles O27. -/
theorem outputsAreFunctionsOfTheirOwnInput : Obligations.OutputsAreFunctionsOfTheirOwnInput := by
  refine ⟨⟨encCodeOf, decValueOf, fun s => ⟨s.encCode_eq_encCodeOf, s.decValue_eq_decValueOf⟩⟩,
    uf8Encode, uf8Decode, fun s v hv => ?_, fun s c hc => ?_⟩
  · exact ⟨State.encCode_of_encHolds hv, execEncode_of_encHolds hv⟩
  · exact ⟨State.decValue_of_decHolds hc, execDecode_of_decHolds hc⟩

/-- Settles O34: nothing has been sampled. -/
theorem resetSamplesFollowPorts : Obligations.ResetSamplesFollowPorts :=
  ⟨.inl rfl, .inl rfl⟩

end Sys2Proof.Machine

/-! ## The memory's statements: early samples and repetition

An operation that has answered leaves a state on which it answers that same state (`exec_eq_self_iff`):
the held operand stands on the input and its function stands in the sample. Repeating the operation and
holding an input for longer both keep that form. -/

namespace Sys2Proof.Machine

/-! ### An input that changes -/

/-- Lines that read as `w` are not those of another value. -/
theorem drivenLines_ne_of_readLines {n : Nat} {l : Lines n} {v w : BitVec n}
    (hread : readLines l = some w) (hne : v ≠ w) : drivenLines v ≠ l := by
  rintro rfl
  exact hne (Option.some.inj ((readLines_drivenLines v).symm.trans hread))

/-- Driving another value on `enc_value` unsettles it and discards the sample (R30, log entry 5). -/
theorem State.driveEncValue_of_reads_other {s : State} {v w : Value}
    (hread : readLines s.encValue.lines = some w) (hne : v ≠ w) :
    (s.driveEncValue (drivenLines v)).encValue.settled = false ∧
    (s.driveEncValue (drivenLines v)).encSample = none := by
  rw [s.driveEncValue_of_ne _ (drivenLines_ne_of_readLines hread hne)]
  exact ⟨rfl, rfl⟩

/-- Driving another code on `dec_code` unsettles it and discards the sample (R30, log entry 5). -/
theorem State.driveDecCode_of_reads_other {s : State} {c d : Code}
    (hread : readLines s.decCode.lines = some d) (hne : c ≠ d) :
    (s.driveDecCode (drivenLines c)).decCode.settled = false ∧
    (s.driveDecCode (drivenLines c)).decSample = none := by
  rw [s.driveDecCode_of_ne _ (drivenLines_ne_of_readLines hread hne)]
  exact ⟨rfl, rfl⟩

/-! ### A sample taken too early -/

/-- A defined input that has not settled gives the sample of its output no meaning (R30). -/
theorem sampleInput_of_not_settled {w : Nat} (p out : Port) {port : InPort w} {v : BitVec w}
    (hread : readLines port.lines = some v) (hsettled : port.settled = false) :
    sampleInput p out port = .error (.sampledTooEarly out) :=
  (sampleInput_eq_error_iff _ _ _ _).mpr (.inr ⟨⟨v, hread⟩, hsettled, rfl⟩)

theorem exec_encode_of_not_settled {s : State} {v : Value}
    (hread : readLines s.encValue.lines = some v) (hsettled : s.encValue.settled = false) :
    exec .encode s = .refused (.sampledTooEarly .encCode) :=
  execEncode_of_operand_error (sampleInput_of_not_settled _ _ hread hsettled)

theorem exec_decode_of_not_settled {s : State} {c : Code}
    (hread : readLines s.decCode.lines = some c) (hsettled : s.decCode.settled = false) :
    exec .decode s = .refused (.sampledTooEarly .decValue) :=
  execDecode_of_operand_error (sampleInput_of_not_settled _ _ hread hsettled)

/-! ### What an operation leaves as it is, and its fixed points -/

/-- An operation that goes on leaves both input ports and the request as they are. -/
theorem exec_frame {i : Instr} {s s' : State} (h : exec i s = .next s') :
    s'.encValue = s.encValue ∧ s'.decCode = s.decCode ∧ s'.request = s.request := by
  obtain ⟨_, _, _, rfl⟩ | ⟨_, _, _, rfl⟩ := (exec_eq_next_iff i s s').mp h
  · exact ⟨rfl, rfl, rfl⟩
  · exact ⟨rfl, rfl, rfl⟩

theorem State.eq_with_encSample_iff (s : State) (x : Option Code) :
    s = { s with encSample := x } ↔ s.encSample = x :=
  ⟨fun h => congrArg State.encSample h, fun h => by rw [← h]⟩

theorem State.eq_with_decSample_iff (s : State) (x : Option Value) :
    s = { s with decSample := x } ↔ s.decSample = x :=
  ⟨fun h => congrArg State.decSample h, fun h => by rw [← h]⟩

/-- The states on which an operation changes nothing: its sample is already its answer to the operand
held. -/
theorem exec_eq_self_iff (i : Instr) (s : State) :
    exec i s = .next s ↔
      (i = .encode ∧ ∃ v, s.encHolds v ∧ s.encSample = some (uf8Encode v)) ∨
      (i = .decode ∧ ∃ c, s.decHolds c ∧ s.decSample = some (uf8Decode c)) := by
  simp only [exec_eq_next_iff, State.eq_with_encSample_iff, State.eq_with_decSample_iff]

/-- An operation that goes on does so to a state on which it changes nothing. -/
theorem exec_idempotent {i : Instr} {s s' : State} (h : exec i s = .next s') :
    exec i s' = .next s' := by
  rw [exec_eq_self_iff]
  obtain ⟨hi, v, hv, rfl⟩ | ⟨hi, c, hc, rfl⟩ := (exec_eq_next_iff i s s').mp h
  · exact .inl ⟨hi, v, hv, rfl⟩
  · exact .inr ⟨hi, c, hc, rfl⟩

/-- Holding `enc_value` for longer keeps a state on which an operation changes nothing one. -/
theorem exec_settleEncValue_eq_self {i : Instr} {s : State} (h : exec i s = .next s) :
    exec i s.settleEncValue = .next s.settleEncValue := by
  rw [exec_eq_self_iff] at h ⊢
  obtain ⟨hi, v, ⟨hread, _⟩, hsample⟩ | hdecode := h
  · exact .inl ⟨hi, v, ⟨hread, s.settleEncValue_settled⟩, hsample⟩
  · exact .inr hdecode

/-- Holding `dec_code` for longer keeps a state on which an operation changes nothing one. -/
theorem exec_settleDecCode_eq_self {i : Instr} {s : State} (h : exec i s = .next s) :
    exec i s.settleDecCode = .next s.settleDecCode := by
  rw [exec_eq_self_iff] at h ⊢
  obtain hencode | ⟨hi, c, ⟨hread, _⟩, hsample⟩ := h
  · exact .inl hencode
  · exact .inr ⟨hi, c, ⟨hread, s.settleDecCode_settled⟩, hsample⟩

/-! ### The statements, tier 2 -/

/-- Settles O30: driving another value gives lines that are defined and not settled, which the first
two clauses then refuse. -/
theorem earlySampleIsRefused : Obligations.EarlySampleIsRefused := by
  refine ⟨fun s v => exec_encode_of_not_settled, fun s c => exec_decode_of_not_settled,
    fun s v w hread hne => ?_, fun s c d hread hne => ?_⟩
  · obtain ⟨hsettled, hsample⟩ := State.driveEncValue_of_reads_other hread hne
    have hnew : readLines (s.driveEncValue (drivenLines v)).encValue.lines = some v := by
      rw [State.driveEncValue_lines, readLines_drivenLines]
    exact ⟨exec_encode_of_not_settled hnew hsettled, State.encCode_of_not_settled hsettled, hsample,
      s.encHolds_settle_drive v⟩
  · obtain ⟨hsettled, hsample⟩ := State.driveDecCode_of_reads_other hread hne
    have hnew : readLines (s.driveDecCode (drivenLines c)).decCode.lines = some c := by
      rw [State.driveDecCode_lines, readLines_drivenLines]
    exact ⟨exec_decode_of_not_settled hnew hsettled, State.decValue_of_not_settled hsettled, hsample,
      s.decHolds_settle_drive c⟩

/-- Settles O31: the step is one operation, the request stands, and the operation has reached a state
on which it changes nothing. -/
theorem operationsAreIdempotent : Obligations.OperationsAreIdempotent := by
  intro s s' hstep
  obtain ⟨i, hrequest, hexec⟩ := (step_eq_next_iff s s').mp hstep
  obtain ⟨hvalue, hcode, hkept⟩ := exec_frame hexec
  have hagain : exec i s' = .next s' := exec_idempotent hexec
  have hrequest' : s'.request = some (encodeInstr i) := hkept.trans hrequest
  refine ⟨?_, ?_, ?_, ?_, ?_⟩
  · exact (step_eq_next_iff _ _).mpr ⟨i, hrequest', hagain⟩
  · rw [← hvalue, State.driveEncValue_same]
  · rw [← hcode, State.driveDecCode_same]
  · exact (step_eq_next_iff _ _).mpr ⟨i, hrequest', exec_settleEncValue_eq_self hagain⟩
  · exact (step_eq_next_iff _ _).mpr ⟨i, hrequest', exec_settleDecCode_eq_self hagain⟩

end Sys2Proof.Machine

/-! ## The encoding's statements: tags, the code's fields and the host's shorthands

ROUNDTRIP and QUANT run ENCODE and DECODE one after the other, so that their results rest on what the
two functions are to each other. `encodeWith_fields` reads ENCODE as numbers: the bucket of the operand
(`IsBucketOf`) and the clamped floor in it (`tableMantissa`). Both facts about the two functions follow
from it: `uf8Encode_uf8Decode` (R70) and `uf8Decode_uf8Encode_le` (the first half of R72). -/

namespace Sys2Proof.Machine

/-! ### Tags -/

/-- A tag other than 0 and 1 is rejected by name (R47). -/
theorem decodeInstr_of_other_tag {t : Tag} (h0 : t ≠ 0#8) (h1 : t ≠ 1#8) :
    decodeInstr t = .error (.noSuchOperation t) :=
  (if_neg h0).trans (if_neg h1)

theorem step_of_tag_error {s : State} {t : Tag} {b : BadTag} (hrequest : s.request = some t)
    (htag : decodeInstr t = .error b) : step s = .refused (.noSuchOperation t) := by
  simp only [step, State.requested, hrequest, htag]

/-! ### The code's fields -/

@[simp] theorem exponentField_packCode (e m : Nibble) : exponentField (packCode e m) = e := by
  have hm := m.isLt
  apply BitVec.eq_of_toNat_eq
  rw [(codeFields_toNat _).1, packCode_toNat]
  omega

@[simp] theorem mantissaField_packCode (e m : Nibble) : mantissaField (packCode e m) = m := by
  have hm := m.isLt
  apply BitVec.eq_of_toNat_eq
  rw [(codeFields_toNat _).2, packCode_toNat]
  omega

/-- The fields of a code pack to it, so that a code is determined by its fields. -/
@[simp] theorem packCode_fields (c : Code) : packCode (exponentField c) (mantissaField c) = c := by
  obtain ⟨hexponent, hmantissa⟩ := codeFields_toNat c
  apply BitVec.eq_of_toNat_eq
  rw [packCode_toNat, hexponent, hmantissa, Nat.div_add_mod]

/-! ### The bucket of a value, and that of a code's -/

/-- `e` is the greatest exponent in 0..15 whose bucket starts at or below `v` (R65, R73). -/
structure IsBucketOf (v : Value) (e : Nat) : Prop where
  le_max : e ≤ 15
  start_le : 16 * (2 ^ e - 1) ≤ v.toNat
  greatest : ∀ k ≤ 15, 16 * (2 ^ k - 1) ≤ v.toNat → k ≤ e

theorem IsBucketOf.unique {v : Value} {e k : Nat} (he : IsBucketOf v e) (hk : IsBucketOf v k) :
    e = k :=
  Nat.le_antisymm (hk.greatest e he.le_max he.start_le) (he.greatest k hk.le_max hk.start_le)

/-- It is enough that the next bucket starts above `v`: the starts grow with the exponent. -/
theorem isBucketOf_of_lt_next {v : Value} {e : Nat} (hmax : e ≤ 15)
    (hstart : 16 * (2 ^ e - 1) ≤ v.toNat) (hnext : e < 15 → v.toNat < 16 * (2 ^ (e + 1) - 1)) :
    IsBucketOf v e := by
  refine ⟨hmax, hstart, fun k hk hkstart => ?_⟩
  by_contra hlt
  have hpow : 2 ^ (e + 1) ≤ 2 ^ k := Nat.pow_le_pow_right (by decide) (by omega)
  have := hnext (by omega)
  omega

/-- DECODE as a number (R54). -/
theorem uf8Decode_toNat (c : Code) :
    (uf8Decode c).toNat = (mantissaField c).toNat * 2 ^ (exponentField c).toNat +
      16 * (2 ^ (exponentField c).toNat - 1) :=
  reconstruct_toNat _ _

/-- The value of a code lies in the bucket of the code's exponent. -/
theorem isBucketOf_uf8Decode (c : Code) : IsBucketOf (uf8Decode c) (exponentField c).toNat := by
  have hexponent := (exponentField c).isLt
  have hmantissa := (mantissaField c).isLt
  have hvalue := uf8Decode_toNat c
  have hpos : 0 < 2 ^ (exponentField c).toNat := Nat.two_pow_pos _
  have hoffset : (mantissaField c).toNat * 2 ^ (exponentField c).toNat
      ≤ 15 * 2 ^ (exponentField c).toNat := Nat.mul_le_mul_right _ (by omega)
  exact isBucketOf_of_lt_next (by omega) (by omega) (fun _ => by rw [Nat.pow_succ]; omega)

/-! ### ENCODE as numbers -/

theorem fastPath_iff (v : Value) : fastPath v = true ↔ v.toNat < 16 :=
  decide_eq_true_iff

theorem overMantissa_iff (raw : Value) : overMantissa raw = true ↔ 15 < raw.toNat :=
  decide_eq_true_iff

theorem seedExponent_le (msb : BitVec 5) : seedExponent msb ≤ 15 := by
  unfold seedExponent
  split
  · exact Nat.min_le_right _ _
  · exact Nat.zero_le _

/-- From any candidate in 0..15 the selector ends at the bucket of `v`, with that bucket's start
(R62 to R65). -/
theorem selectBucket_isBucketOf (v : Value) {candidate : Nat} (h : candidate ≤ 15) :
    IsBucketOf v (selectBucket v candidate).exponent ∧
    (selectBucket v candidate).overflow = offset (selectBucket v candidate).exponent := by
  obtain ⟨hdown, hdownStart, hdownLe⟩ := correctDown_spec v candidate h
  have hup := correctUp_spec v _ _ (Nat.add_sub_cancel' (hdown.trans h)) hdownStart hdownLe
  rw [show correctUp v _ _ = selectBucket v candidate from rfl] at hup
  obtain ⟨_, hmax, hstart, hle, hnext⟩ := hup
  rw [seedOverflow_eq_offset hmax] at hstart
  refine ⟨isBucketOf_of_lt_next hmax ?_ fun hlt => ?_, hstart⟩
  · rwa [hstart, offset_toNat hmax] at hle
  · rw [← offset_toNat hlt, ← seedOverflow_eq_offset hlt]
    exact hnext hlt

/-- The shifted difference is the floor of a division by `2^exponent`, where the difference does not
wrap (R66, R74). -/
theorem rawMantissa_toNat {v : Value} {b : Bucket} (h : b.overflow.toNat ≤ v.toNat) :
    (rawMantissa v b).toNat = (v.toNat - b.overflow.toNat) / 2 ^ b.exponent := by
  rw [rawMantissa, BitVec.toNat_ushiftRight, Nat.shiftRight_eq_div_pow,
    BitVec.toNat_sub_of_le (BitVec.le_def.mpr h)]

/-- The clamp, as a number (R66). -/
theorem clampMantissa_toNat (raw : Value) : (clampMantissa raw).toNat = min raw.toNat 15 := by
  by_cases h : overMantissa raw
  · have hlt : 15 < raw.toNat := (overMantissa_iff raw).mp h
    rw [clampMantissa, if_pos h, Nat.min_eq_right hlt.le]
    rfl
  · have hle : raw.toNat ≤ 15 := Nat.le_of_not_lt fun hlt => h ((overMantissa_iff raw).mpr hlt)
    rw [clampMantissa, if_neg h, BitVec.toNat_setWidth, Nat.mod_eq_of_lt (Nat.lt_succ_of_le hle),
      Nat.min_eq_left hle]

/-- The mantissa of the table form: the clamped floor of `v` within the bucket `e` (R73). -/
def tableMantissa (v : Value) (e : Nat) : Nat := min ((v.toNat - 16 * (2 ^ e - 1)) / 2 ^ e) 15

/-- R73, for every counter: the code's exponent is the bucket of `v`, and its mantissa that of
the table form. -/
theorem encodeWith_fields (counter : Value → BitVec 5) (v : Value) :
    IsBucketOf v (exponentField (encodeWith counter v)).toNat ∧
    (mantissaField (encodeWith counter v)).toNat =
      tableMantissa v (exponentField (encodeWith counter v)).toNat := by
  by_cases hfast : fastPath v
  · have hlt : v.toNat < 16 := (fastPath_iff v).mp hfast
    obtain ⟨hexponent, hmantissa⟩ := codeFields_toNat (v.setWidth 8)
    rw [BitVec.toNat_setWidth, Nat.mod_eq_of_lt (by omega)] at hexponent hmantissa
    rw [Nat.div_eq_of_lt hlt] at hexponent
    rw [encodeWith, if_pos hfast, hexponent, hmantissa]
    exact ⟨isBucketOf_of_lt_next (by decide) (by omega) (fun _ => by omega),
      by rw [tableMantissa]; omega⟩
  · obtain ⟨hbucket, hstart⟩ := selectBucket_isBucketOf v (seedExponent_le (msbOf (counter v)))
    simp only [encodeWith, if_neg hfast, exponentField_packCode, mantissaField_packCode,
      clampMantissa_toNat]
    generalize selectBucket v (seedExponent (msbOf (counter v))) = b at *
    have hoverflow : b.overflow.toNat = 16 * (2 ^ b.exponent - 1) := by
      rw [hstart, offset_toNat hbucket.le_max]
    have hexponent : (BitVec.ofNat 4 b.exponent).toNat = b.exponent := by
      rw [BitVec.toNat_ofNat, Nat.mod_eq_of_lt (Nat.lt_succ_of_le hbucket.le_max)]
    rw [hexponent, rawMantissa_toNat (hoverflow ▸ hbucket.start_le), hoverflow]
    exact ⟨hbucket, rfl⟩

theorem uf8Encode_fields (v : Value) :
    IsBucketOf v (exponentField (uf8Encode v)).toNat ∧
    (mantissaField (uf8Encode v)).toNat = tableMantissa v (exponentField (uf8Encode v)).toNat :=
  encodeWith_fields lz v

/-! ### ENCODE and DECODE one after the other -/

/-- The first half of R72: the mantissa is a floor, and the clamp only lowers it. -/
theorem uf8Decode_uf8Encode_le (v : Value) : (uf8Decode (uf8Encode v)).toNat ≤ v.toNat := by
  obtain ⟨hbucket, hmantissa⟩ := uf8Encode_fields v
  rw [uf8Decode_toNat, hmantissa, tableMantissa]
  generalize (exponentField (uf8Encode v)).toNat = e at *
  have hstart := hbucket.start_le
  calc min ((v.toNat - 16 * (2 ^ e - 1)) / 2 ^ e) 15 * 2 ^ e + 16 * (2 ^ e - 1)
      ≤ (v.toNat - 16 * (2 ^ e - 1)) / 2 ^ e * 2 ^ e + 16 * (2 ^ e - 1) :=
        Nat.add_le_add_right (Nat.mul_le_mul_right _ (Nat.min_le_left _ _)) _
    _ ≤ (v.toNat - 16 * (2 ^ e - 1)) + 16 * (2 ^ e - 1) :=
        Nat.add_le_add_right (Nat.div_mul_le_self _ _) _
    _ = v.toNat := Nat.sub_add_cancel hstart

/-- A code's value lies exactly its mantissa's steps from its bucket's start. -/
theorem tableMantissa_uf8Decode (c : Code) :
    tableMantissa (uf8Decode c) (exponentField c).toNat = (mantissaField c).toNat := by
  have hle : (mantissaField c).toNat ≤ 15 := Nat.le_of_lt_succ (mantissaField c).isLt
  rw [tableMantissa, uf8Decode_toNat, Nat.add_sub_cancel,
    Nat.mul_div_cancel _ (Nat.two_pow_pos _), Nat.min_eq_left hle]

/-- R70: the bucket of a code's value is the code's exponent, and the table form gives its mantissa, so
that encoding finds both fields again. -/
theorem uf8Encode_uf8Decode (c : Code) : uf8Encode (uf8Decode c) = c := by
  obtain ⟨hbucket, hmantissa⟩ := uf8Encode_fields (uf8Decode c)
  have hexponent := hbucket.unique (isBucketOf_uf8Decode c)
  rw [hexponent, tableMantissa_uf8Decode] at hmantissa
  rw [← packCode_fields (uf8Encode (uf8Decode c)), BitVec.eq_of_toNat_eq hexponent,
    BitVec.eq_of_toNat_eq hmantissa, packCode_fields]

/-! ### The host's lines -/

theorem operandNumber_encode_literal (results : List HostValue) (v : Value) :
    operandNumber results ⟨.encode, .literal v.toNat⟩ = some v.toNat :=
  if_pos v.isLt

theorem operandNumber_decode_literal (results : List HostValue) (c : Code) :
    operandNumber results ⟨.decode, .literal c.toNat⟩ = some c.toNat :=
  if_pos c.isLt

theorem operandNumber_encode_value {results : List HostValue} {k : Nat} {v : Value}
    (h : results[k]? = some (.value v)) :
    operandNumber results ⟨.encode, .result k⟩ = some v.toNat := by
  simp only [operandNumber, h]

theorem operandNumber_decode_code {results : List HostValue} {k : Nat} {c : Code}
    (h : results[k]? = some (.code c)) :
    operandNumber results ⟨.decode, .result k⟩ = some c.toNat := by
  simp only [operandNumber, h]

/-- An ENCODE line whose operand stands for `v` runs, from any state of the block, and appends the code
of `v`. -/
theorem runLine_encode {h : Session} {x : LineOperand} {v : Value}
    (hx : operandNumber h.results ⟨.encode, x⟩ = some v.toNat) :
    ∃ s', runLine h ⟨.encode, x⟩ = .next ⟨s', h.results ++ [.code (uf8Encode v)]⟩ := by
  obtain ⟨s', hstep, _, hsample, _⟩ := step_present_encode h.block v.toNat
  rw [BitVec.ofNat_toNat, BitVec.setWidth_eq] at hsample
  exact ⟨s', by simp only [runLine, hx, hstep, readResult, hsample]⟩

/-- A DECODE line whose operand stands for `c` runs, from any state of the block, and appends the value
of `c`. -/
theorem runLine_decode {h : Session} {x : LineOperand} {c : Code}
    (hx : operandNumber h.results ⟨.decode, x⟩ = some c.toNat) :
    ∃ s', runLine h ⟨.decode, x⟩ = .next ⟨s', h.results ++ [.value (uf8Decode c)]⟩ := by
  obtain ⟨s', hstep, _, hsample, _⟩ := step_present_decode h.block c.toNat
  rw [BitVec.ofNat_toNat, BitVec.setWidth_eq] at hsample
  exact ⟨s', by simp only [runLine, hx, hstep, readResult, hsample]⟩

/-- Two lines run as the second after the first. -/
theorem runLines_pair {h h₁ h₂ : Session} {l₁ l₂ : Line} (hfirst : runLine h l₁ = .next h₁)
    (hsecond : runLine h₁ l₂ = .next h₂) : runLines h [l₁, l₂] = .next h₂ := by
  simp only [runLines, hfirst, hsecond]

/-- ROUNDTRIP of an operand that stands for `c` appends the value of `c` and the code of that value. -/
theorem runRoundTrip_of_operandNumber {h : Session} {x : LineOperand} {c : Code}
    (hx : operandNumber h.results ⟨.decode, x⟩ = some c.toNat) :
    ∃ s', runRoundTrip h x =
      .next ⟨s', h.results ++ [.value (uf8Decode c), .code (uf8Encode (uf8Decode c))]⟩ := by
  obtain ⟨s₁, hfirst⟩ := runLine_decode hx
  obtain ⟨s₂, hsecond⟩ := runLine_encode (h := ⟨s₁, h.results ++ [.value (uf8Decode c)]⟩)
    (operandNumber_encode_value List.getElem?_concat_length)
  rw [List.append_assoc] at hsecond
  exact ⟨s₂, runLines_pair hfirst hsecond⟩

/-- QUANT of an operand that stands for `v` appends the code of `v` and the value of that code. -/
theorem runQuant_of_operandNumber {h : Session} {x : LineOperand} {v : Value}
    (hx : operandNumber h.results ⟨.encode, x⟩ = some v.toNat) :
    ∃ s', runQuant h x =
      .next ⟨s', h.results ++ [.code (uf8Encode v), .value (uf8Decode (uf8Encode v))]⟩ := by
  obtain ⟨s₁, hfirst⟩ := runLine_encode hx
  obtain ⟨s₂, hsecond⟩ := runLine_decode (h := ⟨s₁, h.results ++ [.code (uf8Encode v)]⟩)
    (operandNumber_decode_code List.getElem?_concat_length)
  rw [List.append_assoc] at hsecond
  exact ⟨s₂, runLines_pair hfirst hsecond⟩

/-! ### The statements, tier 2 -/

/-- Settles O26: either form of operand stands for `c` (for `v`), both lines run, and the results are
those of `uf8Encode_uf8Decode` and `uf8Decode_uf8Encode_le`. -/
theorem shorthandsRunAsTheirLines : Obligations.ShorthandsRunAsTheirLines := by
  constructor
  · intro h c y hy
    have hnumber : operandNumber h.results ⟨.decode, y⟩ = some c.toNat := by
      obtain rfl | ⟨k, rfl, hk⟩ := hy
      · exact operandNumber_decode_literal _ _
      · exact operandNumber_decode_code hk
    obtain ⟨s', hrun⟩ := runRoundTrip_of_operandNumber hnumber
    rw [uf8Encode_uf8Decode] at hrun
    exact ⟨s', _, hrun⟩
  · intro h v y hy
    have hnumber : operandNumber h.results ⟨.encode, y⟩ = some v.toNat := by
      obtain rfl | ⟨k, rfl, hk⟩ := hy
      · exact operandNumber_encode_literal _ _
      · exact operandNumber_encode_value hk
    obtain ⟨s', hrun⟩ := runQuant_of_operandNumber hnumber
    exact ⟨s', _, _, hrun, uf8Decode_uf8Encode_le v⟩

/-! ### The statements, tier 1 -/

/-- Settles O1. -/
theorem tagsZeroAndOneNameTheOperations : Obligations.TagsZeroAndOneNameTheOperations := by
  have hdecode : ∀ i : Instr, decodeInstr (encodeInstr i) = .ok i :=
    fun i => (decodeInstr_eq_ok_iff _ i).mpr rfl
  exact ⟨hdecode .encode, hdecode .decode, rfl, rfl, fun i _ => hdecode i⟩

/-- Settles O2: a tag that decodes is the tag of one of the two operations. -/
theorem otherTagsAreRefusedByName : Obligations.OtherTagsAreRefusedByName := by
  refine ⟨fun t => ?_, fun s t hrequest h0 h1 =>
    step_of_tag_error hrequest (decodeInstr_of_other_tag h0 h1)⟩
  simp only [decodeInstr_eq_ok_iff]
  constructor
  · rintro ⟨i, rfl⟩
    cases i with
    | encode => exact .inl rfl
    | decode => exact .inr rfl
  · rintro (rfl | rfl)
    · exact ⟨.encode, rfl⟩
    · exact ⟨.decode, rfl⟩

/-- Settles O6: a shift by 4 is a division by 16, and the mask 0xF the remainder. -/
theorem unpackerSplitsTheCode : Obligations.UnpackerSplitsTheCode := by
  intro c
  obtain ⟨hexponent, hmantissa⟩ := codeFields_toNat c
  refine ⟨?_, ?_, rfl, rfl⟩
  · rw [hexponent, Nat.shiftRight_eq_div_pow]
  · rw [hmantissa, Nat.and_two_pow_sub_one_eq_mod c.toNat 4]

/-- Settles O7: the mantissa is below `2^4`, so that the packer's `|` is a sum. -/
theorem packAndUnpackAreInverse : Obligations.PackAndUnpackAreInverse := by
  refine ⟨fun e m => ⟨exponentField_packCode e m, mantissaField_packCode e m, ?_⟩, packCode_fields⟩
  rw [packCode_toNat, ← Nat.shiftLeft_add_eq_or_of_lt m.isLt, Nat.shiftLeft_eq, Nat.mul_comm]

end Sys2Proof.Machine

/-! ## The decoder's statements: offsets, order, range and the fast path

DECODE is read once as a function of the code's number (`decodedNat`, `uf8Decode_toNat_eq_decodedNat`).
Its step from a number to the next (`decodedNat_succ`, R56) gives that it is strictly increasing, from
which the codes' order, and the greatest value with its uniqueness, follow. -/

namespace Sys2Proof.Machine

/-! ### The offset table -/

/-- R52: `0x7FFF >> (15 - e)` is `e` one-bits. -/
theorem offsetSeed_shiftRight {e : Nat} (h : e ≤ 15) : 0x7FFF >>> (15 - e) = 2 ^ e - 1 := by
  interval_cases e <;> rfl

/-- The offset table's recurrence is the encoder's step (R52, R62). -/
theorem offset_succ {e : Nat} (h : e < 15) : offset (e + 1) = nextOverflow (offset e) := by
  rw [← seedOverflow_eq_offset h, ← seedOverflow_eq_offset h.le, seedOverflow]

theorem offset_succ_toNat {e : Nat} (h : e < 15) :
    (offset (e + 1)).toNat = 2 * (offset e).toNat + 16 := by
  have hpos : 0 < 2 ^ e := Nat.two_pow_pos e
  rw [offset_toNat h, offset_toNat h.le, Nat.pow_succ]
  omega

/-- R57: an offset has 19 bits. -/
theorem offset_toNat_le {e : Nat} (h : e ≤ 15) : (offset e).toNat ≤ 0x7FFF0 := by
  have hpow : 2 ^ e ≤ 2 ^ 15 := Nat.pow_le_pow_right (by decide) h
  rw [offset_toNat h]
  omega

/-! ### DECODE as a function of the code's number -/

theorem exponentField_toNat_le (c : Code) : (exponentField c).toNat ≤ 15 :=
  Nat.le_of_lt_succ (exponentField c).isLt

theorem mantissaField_toNat_le (c : Code) : (mantissaField c).toNat ≤ 15 :=
  Nat.le_of_lt_succ (mantissaField c).isLt

/-- R57: the shifted mantissa has 19 bits. -/
theorem shiftedMantissa_le (c : Code) :
    (mantissaField c).toNat <<< (exponentField c).toNat ≤ 0x78000 := by
  rw [Nat.shiftLeft_eq]
  calc (mantissaField c).toNat * 2 ^ (exponentField c).toNat
      ≤ 15 * 2 ^ 15 := Nat.mul_le_mul (mantissaField_toNat_le c)
        (Nat.pow_le_pow_right (by decide) (exponentField_toNat_le c))
    _ = 0x78000 := by norm_num

/-- R53, R57: DECODE is the sum over the naturals, so that nothing wraps. -/
theorem uf8Decode_toNat_eq_add_offset (c : Code) :
    (uf8Decode c).toNat =
      ((mantissaField c).toNat <<< (exponentField c).toNat) +
        (offset (exponentField c).toNat).toNat := by
  rw [uf8Decode_toNat, offset_toNat (exponentField_toNat_le c), Nat.shiftLeft_eq]

/-- R54's formula, by shifts and masks of the code's number. -/
theorem uf8Decode_eq_ofNat (c : Code) :
    uf8Decode c = BitVec.ofNat 32
      (((c.toNat &&& 0xF) <<< (c.toNat >>> 4)) + ((0x7FFF >>> (15 - (c.toNat >>> 4))) <<< 4)) := by
  obtain ⟨hexponent, hmantissa⟩ := codeFields_toNat c
  have hshift : c.toNat >>> 4 = (exponentField c).toNat := by
    rw [hexponent, Nat.shiftRight_eq_div_pow]
  have hmask : c.toNat &&& 0xF = (mantissaField c).toNat := by
    rw [hmantissa, Nat.and_two_pow_sub_one_eq_mod c.toNat 4]
  have hoffset : (0x7FFF >>> (15 - (exponentField c).toNat)) <<< 4 =
      (offset (exponentField c).toNat).toNat := by
    rw [offsetSeed_shiftRight (exponentField_toNat_le c), offset_toNat (exponentField_toNat_le c),
      Nat.shiftLeft_eq, Nat.mul_comm]
  rw [hshift, hmask, hoffset, ← uf8Decode_toNat_eq_add_offset, BitVec.ofNat_toNat,
    BitVec.setWidth_eq]

/-- The value of the code with number `n`, over all naturals: mantissa `n % 16`, exponent `n / 16`. -/
def decodedNat (n : Nat) : Nat := n % 16 * 2 ^ (n / 16) + 16 * (2 ^ (n / 16) - 1)

theorem uf8Decode_toNat_eq_decodedNat (c : Code) : (uf8Decode c).toNat = decodedNat c.toNat := by
  obtain ⟨hexponent, hmantissa⟩ := codeFields_toNat c
  rw [uf8Decode_toNat, hexponent, hmantissa, decodedNat]

/-- R56's step: within an exponent the mantissa grows by one; into a new exponent, mantissa 15 becomes
the next bucket's start. -/
theorem decodedNat_succ (n : Nat) :
    decodedNat (n + 1) = decodedNat n +
      (if (n + 1) % 16 = 0 then 2 ^ ((n + 1) / 16 - 1) else 2 ^ ((n + 1) / 16)) := by
  by_cases hnew : (n + 1) % 16 = 0
  · have hmantissa : n % 16 = 15 := by omega
    have hexponent : (n + 1) / 16 = n / 16 + 1 := by omega
    rw [if_pos hnew, decodedNat, decodedNat, hnew, hmantissa, hexponent, Nat.add_sub_cancel,
      Nat.pow_succ]
    omega
  · have hmantissa : (n + 1) % 16 = n % 16 + 1 := by omega
    have hexponent : (n + 1) / 16 = n / 16 := by omega
    rw [if_neg hnew, decodedNat, decodedNat, hmantissa, hexponent, Nat.succ_mul]
    omega

/-- R56: each step is at least 1. -/
theorem decodedNat_strictMono : StrictMono decodedNat := by
  refine strictMono_nat_of_lt_succ fun n => ?_
  rw [decodedNat_succ]
  split
  · exact Nat.lt_add_of_pos_right (Nat.two_pow_pos _)
  · exact Nat.lt_add_of_pos_right (Nat.two_pow_pos _)

theorem uf8Decode_lt_iff (a b : Code) :
    (uf8Decode a).toNat < (uf8Decode b).toNat ↔ a.toNat < b.toNat := by
  rw [uf8Decode_toNat_eq_decodedNat, uf8Decode_toNat_eq_decodedNat, decodedNat_strictMono.lt_iff_lt]

/-- R56, between neighbouring codes. -/
theorem uf8Decode_toNat_of_next {a b : Code} (h : b.toNat = a.toNat + 1) :
    (uf8Decode b).toNat = (uf8Decode a).toNat +
      (if (mantissaField b).toNat = 0 then 2 ^ ((exponentField b).toNat - 1)
        else 2 ^ (exponentField b).toNat) := by
  obtain ⟨hexponent, hmantissa⟩ := codeFields_toNat b
  rw [uf8Decode_toNat_eq_decodedNat, uf8Decode_toNat_eq_decodedNat, hexponent, hmantissa, h,
    decodedNat_succ]

/-! ### The greatest value, and the port's upper lines -/

theorem decodedNat_255 : decodedNat 255 = 1015792 := by
  norm_num [decodedNat]

/-- R55: no code's value exceeds that of 0xFF. -/
theorem uf8Decode_toNat_le (c : Code) : (uf8Decode c).toNat ≤ 1015792 := by
  rw [uf8Decode_toNat_eq_decodedNat, ← decodedNat_255]
  exact decodedNat_strictMono.monotone (Nat.le_of_lt_succ c.isLt)

/-- R55: only 0xFF has the greatest value. -/
theorem uf8Decode_toNat_eq_max_iff (c : Code) : (uf8Decode c).toNat = 1015792 ↔ c = 0xFF#8 := by
  rw [uf8Decode_toNat_eq_decodedNat, ← decodedNat_255, decodedNat_strictMono.injective.eq_iff]
  exact BitVec.toNat_inj (y := 0xFF#8)

/-- R57: a decoded value has 20 bits. -/
theorem uf8Decode_toNat_lt (c : Code) : (uf8Decode c).toNat < 2 ^ 20 :=
  (uf8Decode_toNat_le c).trans_lt (by norm_num)

@[simp] theorem drivenLines_getElem {w : Nat} (v : BitVec w) (i : Fin w) :
    (drivenLines v)[i] = levelOf (v.getLsbD i.val) := by
  simp [drivenLines]

/-- Lines that carry a number below `2^k` are 0 from line `k` on. -/
theorem drivenLines_getElem_eq_zero {w k : Nat} {v : BitVec w} (h : v.toNat < 2 ^ k) {i : Fin w}
    (hi : k ≤ i.val) : (drivenLines v)[i] = .zero := by
  have hbit : v.getLsbD i.val = false :=
    Nat.testBit_lt_two_pow (h.trans_le (Nat.pow_le_pow_right (by decide) hi))
  rw [drivenLines_getElem, hbit]
  rfl

/-! ### The fast path -/

/-- R60: below 16 the encoder passes the value through. -/
theorem uf8Encode_of_lt_sixteen {v : Value} (h : v.toNat < 16) : uf8Encode v = v.setWidth 8 :=
  if_pos ((fastPath_iff v).mpr h)

/-- R58: exponent 0 has offset 0 and step 1. -/
theorem decodedNat_of_lt_sixteen {n : Nat} (h : n < 16) : decodedNat n = n := by
  rw [decodedNat, Nat.mod_eq_of_lt h, Nat.div_eq_of_lt h]
  omega

theorem uf8Decode_setWidth_of_lt_sixteen {v : Value} (h : v.toNat < 16) :
    uf8Decode (v.setWidth 8) = v := by
  apply BitVec.eq_of_toNat_eq
  rw [uf8Decode_toNat_eq_decodedNat, BitVec.toNat_setWidth, Nat.mod_eq_of_lt (by omega),
    decodedNat_of_lt_sixteen h]

/-! ### The statements, tier 2 -/

/-- Settles O8. -/
theorem decodeReconstructsEveryCode : Obligations.DecodeReconstructsEveryCode := fun _ c hc =>
  ⟨uf8Decode c, uf8Decode_eq_ofNat c, execDecode_of_decHolds hc, State.decValue_of_decHolds hc⟩

/-- Settles O10: both halves are `decodedNat_succ`, the first through strict monotonicity. -/
theorem decodeIsTotalAndStrictlyIncreasing : Obligations.DecodeIsTotalAndStrictlyIncreasing := by
  constructor
  · intro s t a b ha hb
    exact ⟨_, _, execDecode_of_decHolds ha, execDecode_of_decHolds hb, (uf8Decode_lt_iff a b).symm⟩
  · intro s t a b ha hb hnext
    exact ⟨_, _, execDecode_of_decHolds ha, execDecode_of_decHolds hb, uf8Decode_toNat_of_next hnext⟩

/-- Settles O11. -/
theorem largestDecodedValueIsThatOfTheLastCode :
    Obligations.LargestDecodedValueIsThatOfTheLastCode := fun _ c hc =>
  ⟨uf8Decode c, execDecode_of_decHolds hc, State.decValue_of_decHolds hc, uf8Decode_toNat_le c,
    uf8Decode_toNat_eq_max_iff c, uf8Decode_toNat_lt c⟩

/-- Settles O12: the two summands have 19 bits, their sum over the naturals 20. -/
theorem decoderNeverWraps : Obligations.DecoderNeverWraps := by
  intro s c hc
  refine ⟨exponentField_toNat_le c, offset_toNat_le (exponentField_toNat_le c), shiftedMantissa_le c,
    execDecode_of_decHolds hc, uf8Decode_toNat_eq_add_offset c, uf8Decode_toNat_le c, fun i hi => ?_⟩
  rw [State.decValue_of_decHolds hc]
  exact drivenLines_getElem_eq_zero (uf8Decode_toNat_lt c) hi

/-- Settles O21: the encoder's fast path and the decoder's exponent 0. -/
theorem firstSixteenValuesAreTheirOwnCodes : Obligations.FirstSixteenValuesAreTheirOwnCodes := by
  intro s v hlt
  constructor
  · intro hv
    rw [← uf8Encode_of_lt_sixteen hlt]
    exact ⟨execEncode_of_encHolds hv, State.encCode_of_encHolds hv⟩
  · intro hc
    have hexec := execDecode_of_decHolds hc
    have hport := State.decValue_of_decHolds hc
    rw [uf8Decode_setWidth_of_lt_sixteen hlt] at hexec hport
    exact ⟨hexec, hport⟩

/-! ### The statements, tier 1 -/

/-- Settles O9: `16 * 2^e` is `2^(e + 4)`. -/
theorem offsetTableHasItsClosedForm : Obligations.OffsetTableHasItsClosedForm := by
  refine ⟨fun e he => ⟨?_, offset_toNat he, ?_⟩, offset_toNat (Nat.zero_le 15),
    fun e he => ⟨offset_succ_toNat he, offset_succ he⟩⟩
  · rw [BitVec.toNat_ushiftRight]
    exact offsetSeed_shiftRight he
  · rw [offset_toNat he, Nat.pow_add]
    omega

end Sys2Proof.Machine

/-! ## The encoder's statements: bucket, quantizer and cells

Where the selector ends is `selectBucket_isBucketOf`. Added here are how far the counter's seed is from
that bucket (`IsBucketOf.near_seed`) and when the floor in a bucket exceeds the mantissa's range
(`IsBucketOf.fifteen_lt_floor_iff`). The latter gives that ENCODE and DECODE are adjoint
(`decodedNat_le_iff`): a code is at most `encode(v)` exactly when its value is at most `v` (R69).
Saturation, monotonicity and the cells read that off at one or two codes. -/

namespace Sys2Proof.Machine

/-! ### The seed -/

/-- R61's clamped difference; `msb < 5` needs no case of its own over the naturals. -/
theorem seedExponent_eq_min (msb : BitVec 5) : seedExponent msb = min (msb.toNat - 4) 15 := by
  unfold seedExponent
  split
  · rfl
  · omega

theorem ushiftRight_beq_zero (v : Value) (k : Nat) :
    (v >>> k == 0) = decide (v.toNat < 2 ^ k) := by
  have hzero : v >>> k = 0 ↔ v.toNat < 2 ^ k := by
    rw [← BitVec.toNat_inj, BitVec.toNat_ushiftRight, Nat.shiftRight_eq_div_pow]
    exact Nat.div_eq_zero_iff_lt (Nat.two_pow_pos k)
  rw [beq_eq_decide, decide_eq_decide]
  exact hzero

theorem countP_range_lt (m n : Nat) : (List.range n).countP (fun i => i < m) = min m n := by
  induction n with
  | zero => simp
  | succ n ih =>
    rw [List.range_succ, List.countP_append, ih, List.countP_singleton]
    simp only [decide_eq_true_eq]
    split <;> omega

/-- R76: of the top parts `v[31:31-i]` of a non-zero value, those are 0 that end above its highest
set bit. -/
theorem leadingZeroBits_eq {v : Value} (h : v.toNat ≠ 0) :
    leadingZeroBits v = 31 - v.toNat.log2 := by
  have hzero : ∀ i ∈ List.range 32,
      (v >>> (31 - i) == 0) = true ↔ decide (i < 31 - v.toNat.log2) = true := by
    intro i _
    rw [ushiftRight_beq_zero, decide_eq_true_iff, decide_eq_true_iff, ← Nat.log2_lt h]
    omega
  rw [leadingZeroBits, List.countP_congr hzero, countP_range_lt]
  omega

/-- R76: the counter's most significant bit is the logarithm of a non-zero value. -/
theorem msbOf_lz_toNat {v : Value} (h : v.toNat ≠ 0) : (msbOf (lz v)).toNat = v.toNat.log2 := by
  have hlog : v.toNat.log2 < 32 := (Nat.log2_lt h).mpr v.isLt
  have hne : v ≠ 0 := by
    rintro rfl
    exact h rfl
  rw [msbOf, lz, if_neg hne, leadingZeroBits_eq h, BitVec.toNat_sub, BitVec.toNat_ofNat,
    show (31 : BitVec 5).toNat = 31 from rfl]
  omega

/-- On ENCODE's main path `2^(seed + 4)` is at most `v`, and `v` is below twice that unless the seed is
the clamped one (R61). -/
theorem seedExponent_bracket {v : Value} (h : 16 ≤ v.toNat) :
    16 * 2 ^ seedExponent (msbOf (lz v)) ≤ v.toNat ∧
    (seedExponent (msbOf (lz v)) < 15 →
      v.toNat < 32 * 2 ^ seedExponent (msbOf (lz v))) := by
  have hne : v.toNat ≠ 0 := by omega
  have hlow := Nat.log2_self_le hne
  have hhigh := Nat.lt_log2_self (n := v.toNat)
  rw [seedExponent_eq_min, msbOf_lz_toNat hne]
  have hfour : 4 ≤ v.toNat.log2 := (Nat.le_log2 hne).mpr h
  obtain ⟨k, hk⟩ := Nat.exists_eq_add_of_le' hfour
  rw [hk, Nat.pow_add] at hlow
  rw [hk, Nat.pow_succ, Nat.pow_add] at hhigh
  rw [hk, Nat.add_sub_cancel]
  constructor
  · have hmin : 2 ^ min k 15 ≤ 2 ^ k := Nat.pow_le_pow_right (by decide) (Nat.min_le_left _ _)
    omega
  · intro hlt
    rw [show min k 15 = k by omega]
    omega

/-- R65: the seed's bucket starts at or below `v`, so the greatest such bucket is the seed's or a later
one; two buckets on would start above `v`. -/
theorem IsBucketOf.near_seed {v : Value} {e : Nat} (hbucket : IsBucketOf v e) (h : 16 ≤ v.toNat) :
    seedExponent (msbOf (lz v)) ≤ e ∧ e ≤ seedExponent (msbOf (lz v)) + 1 := by
  obtain ⟨hlow, hhigh⟩ := seedExponent_bracket h
  have hseed := seedExponent_le (msbOf (lz v))
  have hmax := hbucket.le_max
  have hstart := hbucket.start_le
  generalize seedExponent (msbOf (lz v)) = seed at *
  refine ⟨hbucket.greatest seed hseed (by omega), ?_⟩
  by_contra hlt
  have hpow : 2 ^ (seed + 2) ≤ 2 ^ e := Nat.pow_le_pow_right (by decide) (by omega)
  have hnext := hhigh (by omega)
  rw [Nat.pow_add] at hpow
  omega

/-! ### The bucket selector -/

/-- The downward loop does not iterate on a candidate that starts at or below `v` (R63). -/
theorem correctDown_of_le {v overflow : Value} (e : Nat) (h : overflow.toNat ≤ v.toNat) :
    correctDown v e overflow = ⟨e, overflow⟩ := by
  cases e with
  | zero => rfl
  | succ e => exact if_neg (BitVec.not_lt.mpr h)

theorem correctDown_seed {v : Value} (h : 16 ≤ v.toNat) :
    correctDown v (seedExponent (msbOf (lz v))) (seedOverflow (seedExponent (msbOf (lz v)))) =
      ⟨seedExponent (msbOf (lz v)), seedOverflow (seedExponent (msbOf (lz v)))⟩ := by
  obtain ⟨hlow, _⟩ := seedExponent_bracket h
  have hseed := seedExponent_le (msbOf (lz v))
  apply correctDown_of_le
  rw [seedOverflow_eq_offset hseed, offset_toNat hseed]
  omega

/-! ### The floor in a bucket, and its clamp -/

/-- R64: the bucket after that of `v` starts above `v`. -/
theorem IsBucketOf.lt_next {v : Value} {e : Nat} (h : IsBucketOf v e) (hlt : e < 15) :
    v.toNat < 16 * (2 ^ (e + 1) - 1) := by
  by_contra hle
  have := h.greatest (e + 1) hlt (by omega)
  omega

/-- R66, R74: below the last bucket the next bucket's start bounds the floor; in the last one nothing
does, and it exceeds 15 from 0xFFFF0 on. -/
theorem IsBucketOf.fifteen_lt_floor_iff {v : Value} {e : Nat} (h : IsBucketOf v e) :
    15 < (v.toNat - 16 * (2 ^ e - 1)) / 2 ^ e ↔ e = 15 ∧ 0xFFFF0 ≤ v.toNat := by
  have hfloor : 15 < (v.toNat - 16 * (2 ^ e - 1)) / 2 ^ e ↔
      16 * 2 ^ e ≤ v.toNat - 16 * (2 ^ e - 1) := Nat.le_div_iff_mul_le (Nat.two_pow_pos e)
  rw [hfloor]
  by_cases hlast : e = 15
  · subst hlast
    omega
  · have hnext := h.lt_next (Nat.lt_of_le_of_ne h.le_max hlast)
    rw [Nat.pow_succ] at hnext
    omega

/-- From the last bucket's start on, the bucket is the last. -/
theorem IsBucketOf.eq_fifteen_of_le {v : Value} {e : Nat} (h : IsBucketOf v e)
    (hle : 0x7FFF0 ≤ v.toNat) : e = 15 :=
  Nat.le_antisymm h.le_max (h.greatest 15 le_rfl hle)

/-- R74: the floor has 17 bits, since the value has 32. -/
theorem IsBucketOf.floor_le {v : Value} {e : Nat} (h : IsBucketOf v e) :
    (v.toNat - 16 * (2 ^ e - 1)) / 2 ^ e ≤ 131056 := by
  by_cases hbig : 15 < (v.toNat - 16 * (2 ^ e - 1)) / 2 ^ e
  · obtain ⟨rfl, _⟩ := h.fifteen_lt_floor_iff.mp hbig
    have := v.isLt
    omega
  · omega

/-! ### The cells of the codes -/

/-- A code's cell has `2^e` values up to the next code's (R56), at every exponent: the step into a new
exponent is still the old exponent's. -/
theorem decodedNat_succ_eq (n : Nat) : decodedNat (n + 1) = decodedNat n + 2 ^ (n / 16) := by
  rw [decodedNat_succ]
  split
  · rw [show (n + 1) / 16 - 1 = n / 16 by omega]
  · rw [show (n + 1) / 16 = n / 16 by omega]

/-- R72: a floor that the clamp leaves alone is less than one step below the value; where it clamps, the
code is the last. -/
theorem lt_decodedNat_succ_uf8Encode {v : Value} (h : (uf8Encode v).toNat < 255) :
    v.toNat < decodedNat ((uf8Encode v).toNat + 1) := by
  obtain ⟨hbucket, hmantissa⟩ := uf8Encode_fields v
  obtain ⟨hquot, hrem⟩ := codeFields_toNat (uf8Encode v)
  rw [decodedNat_succ_eq, ← uf8Decode_toNat_eq_decodedNat, uf8Decode_toNat, ← hquot, hmantissa]
  rw [hmantissa] at hrem
  have hover := hbucket.fifteen_lt_floor_iff
  have hstart := hbucket.start_le
  generalize (exponentField (uf8Encode v)).toNat = e at *
  have hfloor : (v.toNat - 16 * (2 ^ e - 1)) / 2 ^ e ≤ 15 := by
    by_contra hgt
    obtain ⟨rfl, _⟩ := hover.mp (by omega)
    rw [tableMantissa] at hrem
    omega
  rw [tableMantissa, Nat.min_eq_left hfloor]
  have hstep := Nat.lt_div_mul_add (a := v.toNat - 16 * (2 ^ e - 1)) (Nat.two_pow_pos e)
  omega

/-- R69, R75: ENCODE is adjoint to DECODE. -/
theorem decodedNat_le_iff (v : Value) {n : Nat} (hn : n ≤ 255) :
    decodedNat n ≤ v.toNat ↔ n ≤ (uf8Encode v).toNat := by
  constructor
  · intro hle
    by_contra hlt
    have hcell := lt_decodedNat_succ_uf8Encode (v := v) (by omega)
    have hmono : decodedNat ((uf8Encode v).toNat + 1) ≤ decodedNat n :=
      decodedNat_strictMono.monotone (by omega)
    omega
  · intro hle
    calc decodedNat n ≤ decodedNat (uf8Encode v).toNat := decodedNat_strictMono.monotone hle
      _ = (uf8Decode (uf8Encode v)).toNat := (uf8Decode_toNat_eq_decodedNat _).symm
      _ ≤ v.toNat := uf8Decode_uf8Encode_le v

theorem uf8Decode_le_iff (v : Value) (c : Code) :
    (uf8Decode c).toNat ≤ v.toNat ↔ c.toNat ≤ (uf8Encode v).toNat := by
  rw [uf8Decode_toNat_eq_decodedNat]
  exact decodedNat_le_iff v (Nat.le_of_lt_succ c.isLt)

theorem uf8Encode_monotone {v w : Value} (h : v.toNat ≤ w.toNat) :
    (uf8Encode v).toNat ≤ (uf8Encode w).toNat :=
  (uf8Decode_le_iff w _).mp ((uf8Decode_uf8Encode_le v).trans h)

/-- R71: the values of the last code are those from its own value on. -/
theorem uf8Encode_eq_max_iff (v : Value) : uf8Encode v = 0xFF#8 ↔ 0xF7FF0 ≤ v.toNat := by
  have hlast := decodedNat_le_iff v le_rfl
  rw [decodedNat_255] at hlast
  rw [hlast, ← BitVec.toNat_inj]
  have := (uf8Encode v).isLt
  simp only [BitVec.toNat_ofNat]
  omega

/-- The number of values that ENCODE gives code `c` (R75). -/
def cellSize (c : Code) : Nat :=
  if c.toNat = 0xFF then 2 ^ 32 - 0xF7FF0 else 2 ^ (exponentField c).toNat

/-- R75: the cell of a code begins at its value, and ends at the next code's, or with the domain. -/
theorem uf8Encode_eq_iff (v : Value) (c : Code) :
    uf8Encode v = c ↔
      (uf8Decode c).toNat ≤ v.toNat ∧ v.toNat < (uf8Decode c).toNat + cellSize c := by
  by_cases hlast : c.toNat = 0xFF
  · obtain rfl : c = 0xFF#8 := BitVec.eq_of_toNat_eq hlast
    have hvalue := (uf8Decode_toNat_eq_max_iff 0xFF#8).mpr rfl
    have := v.isLt
    rw [uf8Encode_eq_max_iff, hvalue, cellSize, if_pos hlast]
    omega
  · have := c.isLt
    have hend : (uf8Decode c).toNat + cellSize c = decodedNat (c.toNat + 1) := by
      rw [cellSize, if_neg hlast, decodedNat_succ_eq, uf8Decode_toNat_eq_decodedNat,
        (codeFields_toNat c).1]
    have hbelow := decodedNat_le_iff v (n := c.toNat + 1) (by omega)
    rw [hend, uf8Decode_le_iff, ← Nat.not_le, hbelow, ← BitVec.toNat_inj]
    omega

/-- The code of ENCODE, put together from the table form's exponent and mantissa (R67, R73). -/
theorem uf8Encode_eq_ofNat (v : Value) :
    uf8Encode v = BitVec.ofNat 8 (((exponentField (uf8Encode v)).toNat <<< 4) |||
      tableMantissa v (exponentField (uf8Encode v)).toNat) := by
  obtain ⟨_, hmantissa⟩ := uf8Encode_fields v
  obtain ⟨hfields, _⟩ := packAndUnpackAreInverse
  obtain ⟨_, _, hpack⟩ := hfields (exponentField (uf8Encode v)) (mantissaField (uf8Encode v))
  rw [packCode_fields] at hpack
  rw [← hmantissa, ← hpack, BitVec.ofNat_toNat, BitVec.setWidth_eq]

/-! ### ENCODE's answer -/

/-- On a held value ENCODE answers the function of it and nothing else. -/
theorem exec_encode_answers_iff {s : State} {v : Value} (h : s.encHolds v) (c : Code) :
    exec .encode s = .next { s with encSample := some c } ↔ uf8Encode v = c := by
  rw [exec_encode, execEncode_of_encHolds h, Host.Outcome.next.injEq, State.mk.injEq]
  simp only [Option.some.injEq, true_and, and_true]

/-! ### The statements, tier 2 -/

/-- Settles O16: the bucket is that of `selectBucket_isBucketOf`, and the seed is at most one below
it. -/
theorem bucketSelectorFindsTheGreatestBucket :
    Obligations.BucketSelectorFindsTheGreatestBucket := by
  intro v hv seed b
  obtain ⟨hbucket, hstart⟩ : IsBucketOf v b.exponent ∧ b.overflow = offset b.exponent :=
    selectBucket_isBucketOf v (seedExponent_le _)
  refine ⟨hbucket.le_max, hstart, ?_, fun e he hle => ?_, correctDown_seed hv,
    hbucket.near_seed hv⟩
  · rw [offset_toNat hbucket.le_max]
    exact hbucket.start_le
  · rw [offset_toNat he] at hle
    exact hbucket.greatest e he hle

/-- Settles O17: a value has one bucket, and the selector ends there from every candidate. -/
theorem anyCandidateLeadsToTheSameBucket : Obligations.AnyCandidateLeadsToTheSameBucket := by
  intro v e₁ e₂ h₁ h₂
  obtain ⟨hbucket₁, hstart₁⟩ := selectBucket_isBucketOf v h₁
  obtain ⟨hbucket₂, hstart₂⟩ := selectBucket_isBucketOf v h₂
  have hexponent := hbucket₁.unique hbucket₂
  have hoverflow : (selectBucket v e₁).overflow = (selectBucket v e₂).overflow := by
    rw [hstart₁, hstart₂, hexponent]
  exact (Bucket.mk.injEq ..).mpr ⟨hexponent, hoverflow⟩

/-- Settles O18: the selector's bucket starts at or below `v`, so nothing wraps and the floor is that of
`IsBucketOf.fifteen_lt_floor_iff`. -/
theorem quantizerFloorsAndClamps : Obligations.QuantizerFloorsAndClamps := by
  intro v hv b raw
  obtain ⟨hbucket, hstart⟩ : IsBucketOf v b.exponent ∧ b.overflow = offset b.exponent :=
    selectBucket_isBucketOf v (seedExponent_le _)
  have hoverflow : b.overflow.toNat = 16 * (2 ^ b.exponent - 1) := by
    rw [hstart, offset_toNat hbucket.le_max]
  have hle : b.overflow.toNat ≤ v.toNat := hoverflow ▸ hbucket.start_le
  have hraw : raw.toNat = (v.toNat - b.overflow.toNat) / 2 ^ b.exponent := rawMantissa_toNat hle
  have hover : 15 < raw.toNat ↔ b.exponent = 15 ∧ 0xFFFF0 ≤ v.toNat := by
    rw [hraw, hoverflow]
    exact hbucket.fifteen_lt_floor_iff
  refine ⟨?_, hle, hraw, ?_, clampMantissa_toNat raw, hover, ?_⟩
  · rw [hstart]
    exact offset_toNat_le hbucket.le_max
  · rw [hraw, hoverflow]
    exact hbucket.floor_le
  · rw [hover, and_iff_right_of_imp]
    exact fun hlarge => hbucket.eq_fifteen_of_le (by omega)

/-- Settles O19: the bucket is the exponent of the code. -/
theorem encodeIsTheTableForm : Obligations.EncodeIsTheTableForm := by
  intro s v hv
  obtain ⟨hbucket, _⟩ := uf8Encode_fields v
  refine ⟨_, hbucket.le_max, hbucket.start_le, hbucket.greatest, uf8Encode v, ?_,
    execEncode_of_encHolds hv, State.encCode_of_encHolds hv⟩
  rw [Nat.shiftRight_eq_div_pow]
  exact uf8Encode_eq_ofNat v

/-- Settles O20: `uf8Decode_le_iff` read from left to right. -/
theorem encodeAnswersTheGreatestCodeNotAbove :
    Obligations.EncodeAnswersTheGreatestCodeNotAbove := fun _ v hv =>
  ⟨uf8Encode v, execEncode_of_encHolds hv, uf8Decode_uf8Encode_le v,
    fun d => (uf8Decode_le_iff v d).mp⟩

/-- Settles O22: `decodedNat_le_iff` at the last code. -/
theorem encodeSaturatesExactlyFromMaxValue : Obligations.EncodeSaturatesExactlyFromMaxValue :=
  fun _ v hv => ⟨uf8Encode v, execEncode_of_encHolds hv, uf8Encode_eq_max_iff v⟩

/-- Settles O23: below 0xFF the next code's number is one more, and its value is above `v`. -/
theorem encodeNeverRoundsUp : Obligations.EncodeNeverRoundsUp := by
  intro s v hv
  refine ⟨uf8Encode v, execEncode_of_encHolds hv, uf8Decode_uf8Encode_le v, fun hlt => ?_⟩
  rw [uf8Decode_toNat_eq_decodedNat, BitVec.toNat_add_of_lt (Nat.succ_lt_succ hlt)]
  exact lt_decodedNat_succ_uf8Encode hlt

/-- Settles O24: what ENCODE answers is `uf8Encode`, whose cells `uf8Encode_eq_iff` gives. -/
theorem encodeIsMonotoneWithExactCells : Obligations.EncodeIsMonotoneWithExactCells := by
  constructor
  · intro s t v w hv hw hle
    exact ⟨_, _, execEncode_of_encHolds hv, execEncode_of_encHolds hw, uf8Encode_monotone hle⟩
  · intro s v c hv
    exact (exec_encode_answers_iff hv c).trans (uf8Encode_eq_iff v c)

/-- Settles O25: the second step's operand is the first one's answer, whose code is `c` again. -/
theorem roundTripGivesTheCodeBack : Obligations.RoundTripGivesTheCodeBack := by
  intro s c
  obtain ⟨s₁, hstep₁, hholds₁, hsample₁, _⟩ := step_present_decode s c.toNat
  rw [BitVec.ofNat_toNat, BitVec.setWidth_eq] at hholds₁ hsample₁
  obtain ⟨s₂, hstep₂, hholds₂, hsample₂, _⟩ := step_present_encode s₁ (uf8Decode c).toNat
  rw [BitVec.ofNat_toNat, BitVec.setWidth_eq] at hholds₂ hsample₂
  have hport₂ := State.readLines_encCode_of_encHolds hholds₂
  rw [uf8Encode_uf8Decode] at hsample₂ hport₂
  exact ⟨s₁, s₂, uf8Decode c, hstep₁, hsample₁, State.readLines_decValue_of_decHolds hholds₁,
    hstep₂, hsample₂, hport₂⟩

end Sys2Proof.Machine

/-! ## The leading-zero counter's statements

On a non-zero value the counter's most significant bit is the value's logarithm (`msbOf_lz_toNat`), so
that its bracket, its set bit and its range are the logarithm's. That no result depends on the counter
at 0 is the fast path's doing (`encodeWith_of_lt_sixteen`); above it, the selector ends at the same
bucket from every seed (`encodeWith_eq_uf8Encode`). -/

namespace Sys2Proof.Machine

/-! ### The counter on non-zero values -/

theorem value_log2_le (v : Value) : v.toNat.log2 ≤ 31 := by
  by_cases h : v.toNat = 0
  · rw [h, Nat.log2_zero]
    exact Nat.zero_le _
  · exact Nat.le_of_lt_succ ((Nat.log2_lt h).mpr v.isLt)

/-- R76: a non-zero value has at most 31 leading zeros, so that the 5-bit output is the whole count. -/
theorem lz_toNat {v : Value} (h : v ≠ 0#32) : (lz v).toNat = leadingZeroBits v := by
  have hcount := leadingZeroBits_eq (BitVec.toNat_ne.mp h)
  rw [lz, if_neg (show ¬v = 0 from h), BitVec.toNat_ofNat, Nat.mod_eq_of_lt (by omega)]

/-- R76: `v[31:31-i]` as a number is the quotient by `2^(31-i)`. -/
theorem leadingZeroBits_eq_length_filter (v : Value) :
    leadingZeroBits v =
      ((List.range 32).filter fun i => v.toNat / 2 ^ (31 - i) = 0).length := by
  rw [leadingZeroBits, ← List.countP_eq_length_filter]
  refine List.countP_congr fun i _ => ?_
  rw [ushiftRight_beq_zero, decide_eq_true_iff, decide_eq_true_iff,
    Nat.div_eq_zero_iff_lt (Nat.two_pow_pos _)]

/-- R76: the two outputs of the counter add up to 31. -/
theorem lz_add_msbOf_lz {v : Value} (h : v ≠ 0#32) :
    (lz v).toNat + (msbOf (lz v)).toNat = 31 := by
  have hne : v.toNat ≠ 0 := BitVec.toNat_ne.mp h
  rw [lz_toNat h, leadingZeroBits_eq hne, msbOf_lz_toNat hne,
    Nat.sub_add_cancel (value_log2_le v)]

/-- A set bit's index is at most the logarithm. -/
theorem le_log2_of_getLsbD {v : Value} {i : Nat} (h : v.getLsbD i = true) : i ≤ v.toNat.log2 := by
  have hpow : 2 ^ i ≤ v.toNat := Nat.ge_two_pow_of_testBit h
  have hne : v.toNat ≠ 0 := (Nat.two_pow_pos i).trans_le hpow |>.ne'
  exact (Nat.le_log2 hne).mpr hpow

/-! ### ENCODE with any counter -/

/-- R60, R77: the fast path is taken before the counter is consulted. -/
theorem encodeWith_of_lt_sixteen (counter : Value → BitVec 5) {v : Value} (h : v.toNat < 16) :
    encodeWith counter v = v.setWidth 8 :=
  if_pos ((fastPath_iff v).mpr h)

/-- R61, R97: the counter enters only through the seed, a candidate in 0..15, and the selector ends at
the same bucket from all of them. -/
theorem encodeWith_eq_uf8Encode (counter : Value → BitVec 5) (v : Value) :
    encodeWith counter v = uf8Encode v := by
  have hbucket : selectBucket v (seedExponent (msbOf (counter v))) =
      selectBucket v (seedExponent (msbOf (lz v))) :=
    anyCandidateLeadsToTheSameBucket v _ _ (seedExponent_le _) (seedExponent_le _)
  rw [uf8Encode, encodeWith, encodeWith, hbucket]

/-! ### The statements, tier 2 -/

/-- Settles O13: msb is the logarithm. -/
theorem counterFindsTheHighestSetBit : Obligations.CounterFindsTheHighestSetBit := by
  intro v hv
  have hne : v.toNat ≠ 0 := BitVec.toNat_ne.mp hv
  refine ⟨(lz_toNat hv).trans (leadingZeroBits_eq_length_filter v), lz_add_msbOf_lz hv, ?_⟩
  rw [msbOf_lz_toNat hne]
  exact ⟨Nat.log2_self_le hne, Nat.lt_log2_self, Nat.testBit_log2 hne,
    fun i _ hi => le_log2_of_getLsbD hi⟩

/-- Settles O14: off the fast path the value is at least `2^4`, and the seed is `msb - 4` clamped to
15. -/
theorem counterRangeWithinEncode : Obligations.CounterRangeWithinEncode := by
  intro v hslow
  have hle : 16 ≤ v.toNat := by
    by_contra hlt
    rw [(fastPath_iff v).mpr (by omega)] at hslow
    cases hslow
  have hne : v.toNat ≠ 0 := by omega
  have hsum : (lz v).toNat + (msbOf (lz v)).toNat = 31 :=
    lz_add_msbOf_lz (BitVec.toNat_ne.mpr hne)
  have hmsb : 4 ≤ (msbOf (lz v)).toNat := by
    rw [msbOf_lz_toNat hne]
    exact (Nat.le_log2 hne).mpr hle
  rw [seedExponent_eq_min]
  omega

/-- Settles O15: below 16 by the fast path; above, every seed leads to the same bucket, whether or not
the counter is right. -/
theorem noResultDependsOnTheCounterAtZero : Obligations.NoResultDependsOnTheCounterAtZero :=
  ⟨fun counter v hlt =>
    ⟨encodeWith_of_lt_sixteen counter hlt, encodeWith_eq_uf8Encode counter v⟩,
    fun counter _ v => encodeWith_eq_uf8Encode counter v⟩

end Sys2Proof.Machine

/-! ## What an operation on its operand can do, and two operations on their own operands

An input either holds a defined operand or gives one of two named refusals (`sampleInput_cases`), and an
operation answers what its input gives. A sample of one datapath is no part of what the other's input
holds, so that after one operation the other still finds its operand. -/

namespace Sys2Proof.Machine

/-! ### The outcomes of reading an input -/

/-- R24, R30: an input holds a value, or holds none and is refused, as undriven or as sampled too
early. -/
theorem sampleInput_cases {w : Nat} (p out : Port) (i : InPort w) :
    (∃ v, readLines i.lines = some v ∧ i.settled = true) ∨
      ((∀ v, ¬ (readLines i.lines = some v ∧ i.settled = true)) ∧
        (sampleInput p out i = .error (.undrivenInput p) ∨
          sampleInput p out i = .error (.sampledTooEarly out))) := by
  cases hsample : sampleInput p out i with
  | ok v => exact .inl ⟨v, (sampleInput_eq_ok_iff p out i v).mp hsample⟩
  | error r =>
    refine .inr ⟨fun v hheld => ?_, ?_⟩
    · cases hsample.symm.trans ((sampleInput_eq_ok_iff p out i v).mpr hheld)
    · obtain ⟨_, rfl⟩ | ⟨_, _, rfl⟩ := (sampleInput_eq_error_iff p out i r).mp hsample
      · exact .inl rfl
      · exact .inr rfl

/-! ### An operand and the other datapath's sample -/

theorem State.encHolds_with_decSample (s : State) (x : Option Value) (v : Value) :
    State.encHolds { s with decSample := x } v ↔ s.encHolds v := Iff.rfl
theorem State.decHolds_with_encSample (s : State) (x : Option Code) (c : Code) :
    State.decHolds { s with encSample := x } c ↔ s.decHolds c := Iff.rfl

/-! ### The statements, tier 2 -/

/-- Settles O28: an operation completes on a held operand, and passes on its input's refusal. -/
theorem onlyOperandsNotDefinedAndHeldAreRefused :
    Obligations.OnlyOperandsNotDefinedAndHeldAreRefused := by
  constructor
  · intro s
    obtain ⟨v, hv⟩ | ⟨hnone, herror⟩ := sampleInput_cases .encValue .encCode s.encValue
    · exact .inl ⟨v, hv, _, execEncode_of_encHolds hv⟩
    · exact .inr ⟨hnone, herror.imp execEncode_of_operand_error execEncode_of_operand_error⟩
  · intro s
    obtain ⟨c, hc⟩ | ⟨hnone, herror⟩ := sampleInput_cases .decCode .decValue s.decCode
    · exact .inl ⟨c, hc, _, execDecode_of_decHolds hc⟩
    · exact .inr ⟨hnone, herror.imp execDecode_of_operand_error execDecode_of_operand_error⟩

/-- Settles O32: after either operation the other's operand is still held, and the two samples are
different fields. -/
theorem datapathsDoNotInteract : Obligations.DatapathsDoNotInteract := by
  intro s v c hv hc
  have hdecode := execDecode_of_decHolds
    ((s.decHolds_with_encSample (some (uf8Encode v)) c).mpr hc)
  have hencode := execEncode_of_encHolds
    ((s.encHolds_with_decSample (some (uf8Decode c)) v).mpr hv)
  exact ⟨_, _, _, execEncode_of_encHolds hv, execDecode_of_decHolds hc, hdecode, hencode, rfl⟩

end Sys2Proof.Machine
